-- ==== Sys2Proof/Word.lean ====
section
/-! DEFINITION. The word types of the framing block (`00_scope.md` R11, `30_encoding.md` R75): bytes, the 16-bit and
32-bit unsigned fields, the 32-bit signed fields (a bit pattern, read by `toInt`, R12), and byte sequences (R14). -/

namespace Sys2Proof

/-- u8 (R75). -/
abbrev Byte := BitVec 8

/-- u16: `commandOrResponseId`, `dataLength`, the stream checksum (R11). -/
abbrev U16 := BitVec 16

/-- u32: `requestId`, lengths, offsets and counts of the command interface (R11, R75). -/
abbrev U32 := BitVec 32

/-- i32: `originalLength`, `packetId`, `chunkOffset`, `totalCompressedLength`. The bit pattern; its value is `toInt`,
the two's complement reading of R12 (PRESUMED by the spec itself, `93_implementation_defined.md` G1; log 15). -/
abbrev I32 := BitVec 32

/-- A finite sequence of bytes (R14). -/
abbrev Bytes := List Byte

end Sys2Proof
end

