-- ==== Sys2Proof/Config.lean ====
section
/-! DEFINITION. The configuration parameters of an instance (`00_scope.md` R10, `10_state.md` R21) and the free values.
A parameter is plain data fixed when the instance is created, so that every statement about all states is a statement
about all parameter values; a free value is an opaque constant, so that no proof can see it. -/

namespace Sys2Proof

/-- The choice of `CHECKSUM_FN` (R10, R103, D7). `reference h0` is the reference instantiation of R108 with the seed
`H0 = h0`. `external n` is the n-th function about which nothing is known but R103's properties. DESIGN CHOICE, log 2. -/
inductive Config.ChecksumChoice where
  | reference (h0 : U32)
  | external (n : Nat)
deriving DecidableEq, Repr

/-- The parameters of one instance (R10): `k` is `K`, `checksum` is `CHECKSUM_FN` with `H0`, `payloadSize` is
`PAYLOAD_SIZE`, which the block never reads (R207). No command writes one (R26). DESIGN CHOICE, log 1, log 3. -/
structure Config.Setup where
  k           : Nat
  checksum    : Config.ChecksumChoice
  payloadSize : Nat
deriving DecidableEq, Repr

/-- Free value: the 16 bits of the n-th external checksum function before its bit 0 is forced (R103, N1). Log 2. -/
opaque Config.externalChecksum : Nat → Bytes → U16

/-- Free value: which pending command the arbiter takes when the schedule names none, applied to the number of commands
served so far (`ARB`, R51, I10). Log 4. -/
opaque Config.arbChoice : Nat → Nat

/-- Free value: a u32 result field whose exact value does not fit 32 bits, applied to the exact value; it can occur only
for `K ≥ 32` or a byte sequence of 2^32 bytes or more, for which the spec states no result. DESIGN CHOICE, log 6. -/
opaque Config.wideU32 : Nat → U32

/-- The reference value of the checksum seed `H0` (R10, R108). -/
def Config.referenceH0 : U32 := 0x12345678

/-- The parameters of `State.reset`. The spec leaves them open (R10), so these are the model's: `K = 17`, the least
`K` for which every frame fits (R274), the reference checksum, and `PAYLOAD_SIZE = 0`. DESIGN CHOICE, log 1, 2, 3. -/
def Config.resetSetup : Config.Setup :=
  { k := 17, checksum := .reference Config.referenceH0, payloadSize := 0 }

end Sys2Proof
end

