-- ==== Sys2Proof/Syntax.lean ====
section
/-! DEFINITION. The commands of the framing block (`30_encoding.md` R75, R76, R78): one constructor of `Instr` for each
row of `spec/opcode_table.json`, its operands at the types of R76, so that no value out of its type's range can be
presented (R75). -/

namespace Sys2Proof

/-- The send descriptor `TxDesc` (R78). -/
structure TxDesc where
  commandOrResponseId   : U16
  requestId             : U32
  isResponse            : Bool
  compressionMode       : BitVec 2
  encryptionMode        : BitVec 3
  isChunked             : Bool
  originalLength        : I32
  packetId              : I32
  chunkOffset           : I32
  totalCompressedLength : I32
deriving DecidableEq, Repr

/-- The 18 defined opcodes of R76, by the name of their command. -/
inductive Opcode where
  | rbWrite | rbRead | rbPeek | rbPeekByte | rbPeekHeader | rbSkipUntil | rbSkip | rbStat
  | pcEncode | pcDecode
  | hcWriteHeader | hcReadHeader | hcReadOptional
  | frSerializeTcp | frSerializeUdp | frDeserializeTcp | frDeserializeUdp | frPoll
deriving DecidableEq, Repr

/-- A command with its operands (R76). -/
inductive Instr where
  /-- `RB_WRITE src` (R160). -/
  | rbWrite (src : Bytes)
  /-- `RB_READ len, skip` (R162). -/
  | rbRead (len skip : U32)
  /-- `RB_PEEK len, skip` (R164). -/
  | rbPeek (len skip : U32)
  /-- `RB_PEEK_BYTE offset` (R166). -/
  | rbPeekByte (offset : U32)
  /-- `RB_PEEK_HEADER skip` (R168). -/
  | rbPeekHeader (skip : U32)
  /-- `RB_SKIP_UNTIL offset, value` (R170). -/
  | rbSkipUntil (offset : U32) (value : Byte)
  /-- `RB_SKIP n` (R172). -/
  | rbSkip (n : U32)
  /-- `RB_STAT` (R176). -/
  | rbStat
  /-- `PC_ENCODE src` (R110). -/
  | pcEncode (src : Bytes)
  /-- `PC_DECODE src` (R112). -/
  | pcDecode (src : Bytes)
  /-- `HC_WRITE_HEADER d, dataLength` (R130). -/
  | hcWriteHeader (d : TxDesc) (dataLength : U16)
  /-- `HC_READ_HEADER stream, src` (R134). -/
  | hcReadHeader (stream : Bool) (src : Bytes)
  /-- `HC_READ_OPTIONAL flags, src` (R138). -/
  | hcReadOptional (flags : Byte) (src : Bytes)
  /-- `FR_SERIALIZE_TCP d, payload` (R200). -/
  | frSerializeTcp (d : TxDesc) (payload : Bytes)
  /-- `FR_SERIALIZE_UDP d, payload` (R204). -/
  | frSerializeUdp (d : TxDesc) (payload : Bytes)
  /-- `FR_DESERIALIZE_TCP frame` (R214). -/
  | frDeserializeTcp (frame : Bytes)
  /-- `FR_DESERIALIZE_UDP dgram` (R218). -/
  | frDeserializeUdp (dgram : Bytes)
  /-- `FR_POLL` (R224). -/
  | frPoll
deriving DecidableEq, Repr

end Sys2Proof
end

