-- ==== Sys2Proof/WellFormed.lean ====
section
/-! DEFINITION. Which commands have a command record. The operand types already exclude every scalar out of range
(R75); what is left is the length of the byte-sequence operand, which R75 lets a model bound "by a parameter of its
choice": the record's length field is a u32 (DESIGN CHOICE, log 7). A meaning does not depend on the bound. -/

namespace Sys2Proof

/-- One more than the longest byte-sequence operand a command record can carry (log 7). -/
def recordBound : Nat := 2 ^ 32

/-- The byte-sequence operand of a command; the empty sequence where R76 gives it none. -/
def Instr.bytesOperand : Instr → Bytes
  | .rbWrite src => src
  | .rbRead _ _ => []
  | .rbPeek _ _ => []
  | .rbPeekByte _ => []
  | .rbPeekHeader _ => []
  | .rbSkipUntil _ _ => []
  | .rbSkip _ => []
  | .rbStat => []
  | .pcEncode src => src
  | .pcDecode src => src
  | .hcWriteHeader _ _ => []
  | .hcReadHeader _ src => src
  | .hcReadOptional _ src => src
  | .frSerializeTcp _ payload => payload
  | .frSerializeUdp _ payload => payload
  | .frDeserializeTcp frame => frame
  | .frDeserializeUdp dgram => dgram
  | .frPoll => []

/-- The command fits a command record. -/
abbrev Instr.WellFormed (i : Instr) : Prop := i.bytesOperand.length < recordBound

end Sys2Proof
end

