-- ==== Sys2Proof/Decode.lean ====
section
/-! DEFINITION. Command records as bytes: the opcode byte of R76 and then the operands in the order of R76. The spec
gives the opcode byte (R76, D2) and the operand types, and no bit layout of the operand record; the layout here is the
model's (DESIGN CHOICE, log 7): multi-byte operands little-endian, a bool as the byte 0 or 1, u2 and u3 as one byte,
`TxDesc` as its fields in the order of R78, and a byte sequence as its u32 length and then its bytes. -/

namespace Sys2Proof

/-! ### Byte order (R14, R43): shared by command records and wire formats -/

/-- `le16` (R14). -/
def le16 (v : U16) : Bytes := [v.extractLsb' 0 8, v.extractLsb' 8 8]

/-- `le32` (R14). -/
def le32 (v : U32) : Bytes := [v.extractLsb' 0 8, v.extractLsb' 8 8, v.extractLsb' 16 8, v.extractLsb' 24 8]

/-- `s[i]` (R14); the rules use it only inside the sequence. -/
def byteAt (s : Bytes) (i : Nat) : Byte := s.getD i 0

/-- `rd16` (R14). -/
def rd16 (s : Bytes) (o : Nat) : U16 := (byteAt s o).setWidth 16 ||| ((byteAt s (o + 1)).setWidth 16 <<< 8)

/-- `rd32` (R14); `rdi32` is the same bit pattern, read as a signed integer by `toInt`. -/
def rd32 (s : Bytes) (o : Nat) : U32 :=
  (byteAt s o).setWidth 32 ||| ((byteAt s (o + 1)).setWidth 32 <<< 8)
    ||| ((byteAt s (o + 2)).setWidth 32 <<< 16) ||| ((byteAt s (o + 3)).setWidth 32 <<< 24)

/-! ### Opcodes -/

/-- The opcode byte (R76). -/
def Opcode.code : Opcode → Byte
  | .rbWrite => 0x01
  | .rbRead => 0x02
  | .rbPeek => 0x03
  | .rbPeekByte => 0x04
  | .rbPeekHeader => 0x05
  | .rbSkipUntil => 0x06
  | .rbSkip => 0x07
  | .rbStat => 0x08
  | .pcEncode => 0x10
  | .pcDecode => 0x11
  | .hcWriteHeader => 0x20
  | .hcReadHeader => 0x21
  | .hcReadOptional => 0x22
  | .frSerializeTcp => 0x30
  | .frSerializeUdp => 0x31
  | .frDeserializeTcp => 0x32
  | .frDeserializeUdp => 0x33
  | .frPoll => 0x34

/-- The rows of R76. -/
def Opcode.all : List Opcode :=
  [.rbWrite, .rbRead, .rbPeek, .rbPeekByte, .rbPeekHeader, .rbSkipUntil, .rbSkip, .rbStat, .pcEncode, .pcDecode,
   .hcWriteHeader, .hcReadHeader, .hcReadOptional, .frSerializeTcp, .frSerializeUdp, .frDeserializeTcp,
   .frDeserializeUdp, .frPoll]

/-- The defined opcode with this byte; `none` for the 238 reserved bytes (R77). -/
def Opcode.ofCode (b : Byte) : Option Opcode := Opcode.all.find? fun o => o.code == b

/-- The opcode of a command (R76). -/
def Instr.opcode : Instr → Opcode
  | .rbWrite _ => .rbWrite
  | .rbRead _ _ => .rbRead
  | .rbPeek _ _ => .rbPeek
  | .rbPeekByte _ => .rbPeekByte
  | .rbPeekHeader _ => .rbPeekHeader
  | .rbSkipUntil _ _ => .rbSkipUntil
  | .rbSkip _ => .rbSkip
  | .rbStat => .rbStat
  | .pcEncode _ => .pcEncode
  | .pcDecode _ => .pcDecode
  | .hcWriteHeader _ _ => .hcWriteHeader
  | .hcReadHeader _ _ => .hcReadHeader
  | .hcReadOptional _ _ => .hcReadOptional
  | .frSerializeTcp _ _ => .frSerializeTcp
  | .frSerializeUdp _ _ => .frSerializeUdp
  | .frDeserializeTcp _ => .frDeserializeTcp
  | .frDeserializeUdp _ => .frDeserializeUdp
  | .frPoll => .frPoll

/-! ### Reading operands -/

/-- Why a byte record is no command record. `reservedOpcode` is answered ILLEGAL_COMMAND (R77, R244); the others are
records that R75 says cannot be presented (log 8). -/
inductive DecodeError where
  | emptyRecord
  | reservedOpcode (opcode : Byte)
  | truncatedOperands
  | operandOutOfRange
  | trailingBytes
deriving DecidableEq, Repr

/-! Each reader takes an operand from the front of a record and answers it with what is left of the record. -/

def getU8 (s : Bytes) : Except DecodeError (Byte × Bytes) :=
  if 1 ≤ s.length then .ok (byteAt s 0, s.drop 1) else .error .truncatedOperands

def getU16 (s : Bytes) : Except DecodeError (U16 × Bytes) :=
  if 2 ≤ s.length then .ok (rd16 s 0, s.drop 2) else .error .truncatedOperands

def getU32 (s : Bytes) : Except DecodeError (U32 × Bytes) :=
  if 4 ≤ s.length then .ok (rd32 s 0, s.drop 4) else .error .truncatedOperands

/-- A u2, u3 or bool operand: one byte below `2 ^ w` (log 7). -/
def getBits (w : Nat) (s : Bytes) : Except DecodeError (BitVec w × Bytes) := do
  let (b, s) ← getU8 s
  if b.toNat < 2 ^ w then .ok (b.setWidth w, s) else .error .operandOutOfRange

def getBool (s : Bytes) : Except DecodeError (Bool × Bytes) := do
  let (b, s) ← getBits 1 s
  .ok (b == 1, s)

/-- A byte sequence: its u32 length, then its bytes (log 7). -/
def getBytes (s : Bytes) : Except DecodeError (Bytes × Bytes) := do
  let (n, s) ← getU32 s
  if n.toNat ≤ s.length then .ok (s.take n.toNat, s.drop n.toNat) else .error .truncatedOperands

/-- A `TxDesc`, its fields in the order of R78 (log 7). -/
def getTxDesc (s : Bytes) : Except DecodeError (TxDesc × Bytes) := do
  let (id, s) ← getU16 s
  let (rid, s) ← getU32 s
  let (resp, s) ← getBool s
  let (comp, s) ← getBits 2 s
  let (enc, s) ← getBits 3 s
  let (ch, s) ← getBool s
  let (orig, s) ← getU32 s
  let (pid, s) ← getU32 s
  let (coff, s) ← getU32 s
  let (tot, s) ← getU32 s
  .ok ({ commandOrResponseId := id, requestId := rid, isResponse := resp, compressionMode := comp,
         encryptionMode := enc, isChunked := ch, originalLength := orig, packetId := pid, chunkOffset := coff,
         totalCompressedLength := tot }, s)

/-- The operands of each opcode, in the order of R76. -/
def decodeOperands (op : Opcode) (s : Bytes) : Except DecodeError (Instr × Bytes) :=
  match op with
  | .rbWrite => do
    let (src, s) ← getBytes s
    .ok (.rbWrite src, s)
  | .rbRead => do
    let (len, s) ← getU32 s
    let (skip, s) ← getU32 s
    .ok (.rbRead len skip, s)
  | .rbPeek => do
    let (len, s) ← getU32 s
    let (skip, s) ← getU32 s
    .ok (.rbPeek len skip, s)
  | .rbPeekByte => do
    let (offset, s) ← getU32 s
    .ok (.rbPeekByte offset, s)
  | .rbPeekHeader => do
    let (skip, s) ← getU32 s
    .ok (.rbPeekHeader skip, s)
  | .rbSkipUntil => do
    let (offset, s) ← getU32 s
    let (value, s) ← getU8 s
    .ok (.rbSkipUntil offset value, s)
  | .rbSkip => do
    let (n, s) ← getU32 s
    .ok (.rbSkip n, s)
  | .rbStat => .ok (.rbStat, s)
  | .pcEncode => do
    let (src, s) ← getBytes s
    .ok (.pcEncode src, s)
  | .pcDecode => do
    let (src, s) ← getBytes s
    .ok (.pcDecode src, s)
  | .hcWriteHeader => do
    let (d, s) ← getTxDesc s
    let (dataLength, s) ← getU16 s
    .ok (.hcWriteHeader d dataLength, s)
  | .hcReadHeader => do
    let (stream, s) ← getBool s
    let (src, s) ← getBytes s
    .ok (.hcReadHeader stream src, s)
  | .hcReadOptional => do
    let (flags, s) ← getU8 s
    let (src, s) ← getBytes s
    .ok (.hcReadOptional flags src, s)
  | .frSerializeTcp => do
    let (d, s) ← getTxDesc s
    let (payload, s) ← getBytes s
    .ok (.frSerializeTcp d payload, s)
  | .frSerializeUdp => do
    let (d, s) ← getTxDesc s
    let (payload, s) ← getBytes s
    .ok (.frSerializeUdp d payload, s)
  | .frDeserializeTcp => do
    let (frame, s) ← getBytes s
    .ok (.frDeserializeTcp frame, s)
  | .frDeserializeUdp => do
    let (dgram, s) ← getBytes s
    .ok (.frDeserializeUdp dgram, s)
  | .frPoll => .ok (.frPoll, s)

/-- The command of a record (R75, R76), or why it is none. Total on every byte sequence. -/
def decode (record : Bytes) : Except DecodeError Instr :=
  match record with
  | [] => .error .emptyRecord
  | b :: s =>
    match Opcode.ofCode b with
    | none => .error (.reservedOpcode b)
    | some op => do
      let (i, rest) ← decodeOperands op s
      if rest = [] then .ok i else .error .trailingBytes

/-! ### Writing a record -/

def putU8 (v : Byte) : Bytes := [v]

/-- A u2, u3 or bool operand as one byte (log 7). -/
def putBits {w : Nat} (v : BitVec w) : Bytes := [v.setWidth 8]

def putBool (b : Bool) : Bytes := putBits (BitVec.ofBool b)

def putBytes (s : Bytes) : Bytes := le32 (BitVec.ofNat 32 s.length) ++ s

def putTxDesc (d : TxDesc) : Bytes :=
  le16 d.commandOrResponseId ++ le32 d.requestId ++ putBool d.isResponse ++ putBits d.compressionMode
    ++ putBits d.encryptionMode ++ putBool d.isChunked ++ le32 d.originalLength ++ le32 d.packetId
    ++ le32 d.chunkOffset ++ le32 d.totalCompressedLength

def encodeOperands : Instr → Bytes
  | .rbWrite src => putBytes src
  | .rbRead len skip => le32 len ++ le32 skip
  | .rbPeek len skip => le32 len ++ le32 skip
  | .rbPeekByte offset => le32 offset
  | .rbPeekHeader skip => le32 skip
  | .rbSkipUntil offset value => le32 offset ++ putU8 value
  | .rbSkip n => le32 n
  | .rbStat => []
  | .pcEncode src => putBytes src
  | .pcDecode src => putBytes src
  | .hcWriteHeader d dataLength => putTxDesc d ++ le16 dataLength
  | .hcReadHeader stream src => putBool stream ++ putBytes src
  | .hcReadOptional flags src => putU8 flags ++ putBytes src
  | .frSerializeTcp d payload => putTxDesc d ++ putBytes payload
  | .frSerializeUdp d payload => putTxDesc d ++ putBytes payload
  | .frDeserializeTcp frame => putBytes frame
  | .frDeserializeUdp dgram => putBytes dgram
  | .frPoll => []

/-- The record of a command: its opcode byte, then its operands (R75, R76). -/
def encode (i : Instr) : Bytes := i.opcode.code :: encodeOperands i

/-! ### The host's word of an opcode-table row -/

/-- The length in bytes of an opcode's record whose operands are all zero (log 7). -/
def Opcode.zeroRecordLength : Opcode → Nat
  | .rbWrite => 5
  | .rbRead => 9
  | .rbPeek => 9
  | .rbPeekByte => 5
  | .rbPeekHeader => 5
  | .rbSkipUntil => 6
  | .rbSkip => 5
  | .rbStat => 1
  | .pcEncode => 5
  | .pcDecode => 5
  | .hcWriteHeader => 29
  | .hcReadHeader => 6
  | .hcReadOptional => 6
  | .frSerializeTcp => 31
  | .frSerializeUdp => 31
  | .frDeserializeTcp => 5
  | .frDeserializeUdp => 5
  | .frPoll => 1

/-- The low `nbits` bits of `w` as whole bytes, the first at bits 7..0. -/
def wordBytes (nbits w : Nat) : Bytes :=
  (List.range ((nbits + 7) / 8)).map fun i => BitVec.ofNat 8 (w % 2 ^ nbits / 2 ^ (8 * i))

/-- The command record whose first bits are `w`: the table's word is the opcode byte (bits 7..0), and the operand bytes
the table gives no bits are 0, as many as the opcode's operands have. -/
def recordOfWord (nbits w : Nat) : Bytes :=
  match wordBytes nbits w with
  | [] => []
  | b :: s =>
    match Opcode.ofCode b with
    | none => b :: s
    | some op => (b :: s) ++ List.replicate (op.zeroRecordLength - (1 + s.length)) 0

/-- What the decoder reads from the instruction whose bits are `w`. -/
def decodeTableWord (nbits w : Nat) : Option Instr :=
  match decode (recordOfWord nbits w) with
  | .ok i => some i
  | .error _ => none

end Sys2Proof
end

