-- ==== Sys2Proof/Machine/State.lean ====
section
/-! DEFINITION. Responses (`30_encoding.md` R75, R76, R79, `60_exceptions.md` R241), the state of one block instance
(`10_state.md`), the reasons a step can stop, and reset (`70_reset_and_hazards.md` R270). -/

namespace Sys2Proof.Machine

/-- The status codes of R241; the reserved codes are never returned (I7), so they have no constructor. -/
inductive Status where
  | ok | needMore | framingDesync | checksumMismatch | decodeLength | malformedHeader | malformedBody | chunkBounds
  | dgramLengthMismatch | frameTooLarge | badOperand | illegalCommand
deriving DecidableEq, Repr

/-- The receive result `RxResult` (R79). -/
structure RxResult where
  flags                 : Byte
  commandOrResponseId   : U16
  dataLength            : U16
  checksum              : U16
  isChunked             : Bool
  isRequest             : Bool
  isResponse            : Bool
  compressionMode       : BitVec 2
  encryptionMode        : BitVec 3
  requestId             : U32
  originalLength        : I32
  packetId              : I32
  chunkOffset           : I32
  totalCompressedLength : I32
  payload               : Bytes
deriving DecidableEq, Repr

/-- The optional fields as `HC_READ_OPTIONAL` returns them, an absent one as 0 (R138, D35). -/
structure OptionalFields where
  requestId             : U32
  originalLength        : I32
  packetId              : I32
  chunkOffset           : I32
  totalCompressedLength : I32
deriving DecidableEq, Repr

/-- The result fields of a response (R76). `absent` is a response without result fields: `RB_SKIP`'s, and that of every
failed command whose rule says `fail S` (R15). -/
inductive Results where
  | absent
  | written (written : U32)
  | read (data : Bytes) (n : U32)
  | peekByte (valid : Bool) (byte : Byte)
  | header (flags : Byte) (id dataLength checksum : U16)
  | found (found : Bool)
  | stat (head tail count cap : U32)
  | codec (dst : Bytes) (checksum : U16)
  | built (bytes : Bytes) (n : U32)
  | optional (fields : OptionalFields) (n : U32)
  | rx (r : RxResult)
  | poll (consumed : U32) (r : Option RxResult)
deriving DecidableEq, Repr

/-- A response record `(status, results...)` (R75). -/
structure Response where
  status  : Status
  results : Results
deriving DecidableEq, Repr

/-- A command record as an issuer presents it (R75). -/
structure Request where
  issuer : Nat
  record : Bytes
deriving DecidableEq, Repr

/-- A response as it is returned to the issuer that presented the command (R75). -/
structure Delivery where
  issuer   : Nat
  response : Response
deriving DecidableEq, Repr

/-- Why a step stops. No instruction's meaning raises one: the block takes no trap (R240). -/
inductive Fault where
  /-- Raised by `step`: the instance has been disposed, and "a model has no step for a disposed instance" (R271, I14).
  Safe: the spec gives no behaviour that this hides. Log 12. -/
  | disposed
  /-- Raised by `step`: the lock is held, so no other command may start (R29). Every command releases the lock within its
  own step, so no run from a created instance meets it. Safe. Log 11. -/
  | lockHeld
deriving DecidableEq, Repr

/-- Why a step has no meaning to give. -/
inductive Refusal where
  /-- Raised by an arm of `exec` whose instruction has no meaning yet (none is left). Safe. -/
  | notModelled (mnemonic : String)
  /-- Raised by `step`: the bytes are no command record, which R75 says cannot be presented. Safe. Log 8. -/
  | malformedRecord (why : DecodeError)
deriving DecidableEq, Repr

/-- One block instance. `mem`, `head`, `tail`, `count`, `busy` are the persistent state of R20 to R29; `cfg` and
`schedule` are the parameters of R10 and R21; `disposed` is the lifecycle of R271; `pending`, `delivered`, `issuer` and
`served` are the model's own fields, the interface to the issuers (log 4, 9, 10). -/
structure State where
  /-- `K`, `CHECKSUM_FN` and `PAYLOAD_SIZE` (R10); no command writes them (R26). -/
  cfg       : Config.Setup
  /-- `MEM` (R22), in canonical form (`Memory.wf`). -/
  mem       : List Host.Cell
  /-- `HEAD` (R23), a K-bit index. -/
  head      : Nat
  /-- `TAIL` (R24), a K-bit index. -/
  tail      : Nat
  /-- `COUNT` (R25), K+1 bits, at most `C`. -/
  count     : Nat
  /-- `BUSY` (R29). -/
  busy      : Bool
  /-- The instance has been disposed (R271). -/
  disposed  : Bool
  /-- Presented commands not yet served, in presentation order (R51). -/
  pending   : List Request
  /-- `ARB`: which pending command each next service takes (R51). -/
  schedule  : List Nat
  /-- How many commands have been accepted. -/
  served    : Nat
  /-- The issuer whose command holds, or last held, the lock. -/
  issuer    : Nat
  /-- The responses returned so far, newest first (R75, R285). -/
  delivered : List Delivery
deriving DecidableEq, Repr

/-- Creation of an instance with the parameters `c` (R270, R31): cursors 0, lock clear, `MEM` with nothing listed. -/
def State.create (c : Config.Setup) : State :=
  { cfg := c, mem := [], head := 0, tail := 0, count := 0, busy := false, disposed := false, pending := [],
    schedule := [], served := 0, issuer := 0, delivered := [] }

/-- The machine right after reset: the creation of an instance (R270) with the model's parameters (log 1, 2, 3). -/
def State.reset : State := State.create Config.resetSetup

end Sys2Proof.Machine
end

