-- ==== Sys2Proof/Machine/Ops.lean ====
section
/-! DEFINITION. The named operations over memory, cursors, lock, requests and responses, which every meaning shares.
There is no exception to take and nothing to return from: "The block raises no exception and takes no trap" (R240,
R249). What stands in that place is `State.respond`, which ends every command, failed or not (R15). -/

namespace Sys2Proof.Machine

/-- What `exec` and every meaning answer. -/
abbrev Result := Host.Outcome State Fault Refusal

/-! ### `MEM`: a canonical list of cells -/

abbrev Memory := List Host.Cell

/-- What a byte that is not listed reads as: 0x00. The spec leaves it open (R22, I8). DESIGN CHOICE, unsafe, log 5. -/
def Memory.unlisted : Byte := 0x00

/-- The canonical form: addresses strictly rising, no entry equal to what an unlisted address reads as. -/
abbrev Memory.wf (m : Memory) : Prop :=
  m.Pairwise (fun x y => x.1 < y.1) ∧ ∀ c ∈ m, c.2 ≠ Memory.unlisted

/-- The byte at address `a`. -/
def Memory.read : Memory → Nat → Byte
  | [], _ => Memory.unlisted
  | (b, w) :: m, a => if a = b then w else Memory.read m a

/-- The cell `(a, v)` at the front of `m`, left out where `v` is what an unlisted address reads as. -/
def Memory.put (a : Nat) (v : Byte) (m : Memory) : Memory :=
  if v = Memory.unlisted then m else (a, v) :: m

/-- Store `v` at address `a`, keeping the canonical form. -/
def Memory.write : Memory → Nat → Byte → Memory
  | [], a, v => Memory.put a v []
  | (b, w) :: m, a, v =>
    if a < b then Memory.put a v ((b, w) :: m)
    else if a = b then Memory.put a v m
    else (b, w) :: Memory.write m a v

/-! ### The ring's constants and masked addressing (R26, R41) -/

/-- `C = CAP = 2^K` (R10, R26). -/
def State.cap (s : State) : Nat := 2 ^ s.cfg.k

/-- `MASK = C - 1` (R26). -/
def State.mask (s : State) : Nat := s.cap - 1

/-- `i & MASK` (R41). -/
def State.wrap (s : State) (i : Nat) : Nat := i &&& s.mask

/-- `MemRead(i, 1)` (R15). -/
def State.memRead (s : State) (i : Nat) : Byte := Memory.read s.mem (s.wrap i)

/-- `MemWrite(i, 1, v)` (R15). -/
def State.memWrite (s : State) (i : Nat) (v : Byte) : State :=
  { s with mem := Memory.write s.mem (s.wrap i) v }

/-- The `n` bytes at logical positions `start`, `start + 1`, … from `TAIL` (R41). -/
def State.readRange (s : State) (start n : Nat) : Bytes :=
  (List.range n).map fun i => s.memRead (s.tail + start + i)

/-- The valid bytes in FIFO order (R25). -/
def State.validBytes (s : State) : Bytes := s.readRange 0 s.count

/-- Store `src` at logical positions `i`, `i + 1`, …, one byte at a time (R42). -/
def State.storeFrom (s : State) (i : Nat) : Bytes → State
  | [] => s
  | b :: bs => (s.memWrite i b).storeFrom (i + 1) bs

/-- `2^K` capacity of a requested capacity `c ≥ 1`: the least `K` with `c ≤ 2^K` (R26). The search runs upwards from `k`
for at most `fuel` values. -/
def capacityLog2From : Nat → Nat → Nat → Nat
  | 0, k, _ => k
  | fuel + 1, k, c => if c ≤ 2 ^ k then k else capacityLog2From fuel (k + 1) c

/-- `K = ceil(log2(c))` of R26. -/
def capacityLog2 (c : Nat) : Nat := capacityLog2From c 0 c

/-! ### Cursor updates (R41) -/

/-- `TAIL <- (TAIL + n) & MASK; COUNT <- COUNT - n`: the `n` oldest valid bytes are discarded. -/
def State.consume (s : State) (n : Nat) : State :=
  { s with tail := s.wrap (s.tail + n), count := s.count - n }

/-- `HEAD <- (HEAD + n) & MASK; COUNT <- COUNT + n`. -/
def State.produce (s : State) (n : Nat) : State :=
  { s with head := s.wrap (s.head + n), count := s.count + n }

/-- How many of `len` bytes a read or peek after `skip` delivers: `min(len, COUNT - skip)`, and 0 where the exact
difference is not positive (R162, R164, D15). -/
def State.deliverable (s : State) (len skip : Nat) : Nat := min len (s.count - skip)

/-- The first logical position at or after `i`, within the next `fuel` positions, that holds `v` (R170). -/
def State.scan (s : State) (v : Byte) : Nat → Nat → Option Nat
  | 0, _ => none
  | fuel + 1, i => if s.memRead (s.tail + i) = v then some i else s.scan v fuel (i + 1)

/-- The position of the first `v` at or after `offset` among the valid bytes (R170). -/
def State.findFrom (s : State) (offset : Nat) (v : Byte) : Option Nat := s.scan v (s.count - offset) offset

/-- `TAIL <- HEAD; COUNT <- 0`: every valid byte is discarded (R170). -/
def State.discardAll (s : State) : State := { s with tail := s.head, count := 0 }

/-- The state change of `SkipUntil(offset, v)` (R170), shared by `RB_SKIP_UNTIL` and `FR_POLL`. -/
def State.skipUntil (s : State) (offset : Nat) (v : Byte) : State :=
  match s.findFrom offset v with
  | some i => s.consume (i + 1)
  | none => s.discardAll

/-! ### Results and responses -/

/-- A u32 result field of exact value `n` (R75). Where `n` does not fit, which needs `K ≥ 32`, the spec states no value:
it is free (log 6). -/
def toU32 (n : Nat) : U32 := if n < 2 ^ 32 then BitVec.ofNat 32 n else Config.wideU32 n

/-- `respond(status, fields...)` (R15): the response goes to the issuer whose command holds the lock (R75), and the lock
is released (R29). -/
def State.respond (s : State) (st : Status) (r : Results) : State :=
  { s with busy := false, delivered := { issuer := s.issuer, response := { status := st, results := r } } :: s.delivered }

/-- `fail S` (R15): a response with every result field absent; the state is otherwise as it was. -/
def State.fail (s : State) (st : Status) : State := s.respond st .absent

/-! ### Presenting, arbitrating and accepting commands (R29, R51) -/

/-- An issuer presents a command record. A disposed instance accepts none (R271). -/
def State.present (s : State) (issuer : Nat) (record : Bytes) : State :=
  if s.disposed then s else { s with pending := s.pending ++ [{ issuer := issuer, record := record }] }

/-- Which pending command takes the lock next: the schedule's next entry, or the free choice where the schedule is
exhausted (`ARB`, R51, I10; log 4). Any number names one of the pending commands, by its remainder. -/
def State.choice (s : State) : Nat :=
  match s.pending with
  | [] => 0
  | [_] => 0
  | ps => (match s.schedule with
    | c :: _ => c
    | [] => Config.arbChoice s.served) % ps.length

/-- The command that takes the lock next. -/
def State.nextRequest (s : State) : Option Request := s.pending[s.choice]?

/-- The chosen command takes the lock (R29): it is no longer pending, and its issuer is the one to be answered. -/
def State.accept (s : State) (r : Request) : State :=
  { s with pending := s.pending.eraseIdx s.choice, schedule := s.schedule.tail, served := s.served + 1,
           busy := true, issuer := r.issuer }

/-- A record that decodes to no command: a reserved opcode answers ILLEGAL_COMMAND and changes no state (R77, R244);
any other cannot be presented (R75, log 8). -/
def rejectRecord (e : DecodeError) (s : State) : Result :=
  match e with
  | .reservedOpcode _ => .next (s.fail .illegalCommand)
  | .emptyRecord => .refused (.malformedRecord .emptyRecord)
  | .truncatedOperands => .refused (.malformedRecord .truncatedOperands)
  | .operandOutOfRange => .refused (.malformedRecord .operandOutOfRange)
  | .trailingBytes => .refused (.malformedRecord .trailingBytes)

/-- The instance as one pending command, `record`, would find it: alive, its lock clear (for the host's probe). -/
def State.withOnlyRequest (s : State) (record : Bytes) : State :=
  { s with busy := false, disposed := false, pending := [{ issuer := 0, record := record }] }

/-! ### Teardown (R271) -/

/-- Disposal at connection teardown: the whole instance state is discarded, and the instance accepts no more commands.
The parameters, the commands still presented and the responses already returned are the issuers', not the instance's. -/
def State.dispose (s : State) : State :=
  { s with mem := [], head := 0, tail := 0, count := 0, busy := false, disposed := true }

end Sys2Proof.Machine
end

