-- ==== Sys2Proof/Machine/Flags.lean ====
section
/-! DEFINITION. The header byte (`30_encoding.md` R60, R61, R65), the status codes (`60_exceptions.md` R241) and the
check conditions the rules share. The block has no flag register: its "flags" are these fields and the status (R16,
R27). -/

namespace Sys2Proof.Machine

/-! ### Fields of the header byte (R60) -/

/-- `IS_CHUNKED`, bit 7. -/
def isChunkedFlag (f : Byte) : Bool := f.getLsbD 7

/-- `REQUEST`, bit 6. -/
def requestFlag (f : Byte) : Bool := f.getLsbD 6

/-- `RESPONSE`, bit 5. -/
def responseFlag (f : Byte) : Bool := f.getLsbD 5

/-- `COMPRESSION_MODE`, bits 4:3. -/
def compressionModeField (f : Byte) : BitVec 2 := f.extractLsb' 3 2

/-- `ENCRYPTION_MODE`, bits 2:0. -/
def encryptionModeField (f : Byte) : BitVec 3 := f.extractLsb' 0 3

/-- Whether `originalLength` is present: `COMPRESSION_MODE ≠ 0`, the reserved modes included (R64, `90_conflicts.md` C2). -/
def compressedFlag (f : Byte) : Bool := compressionModeField f != 0

/-- A bool as the low bit of a byte, `zext_8` (R61). -/
def bit8 (b : Bool) : Byte := (BitVec.ofBool b).setWidth 8

/-- `Flags(d)`, the header byte assembled from a send descriptor (R61, R129). -/
def flagsOf (d : TxDesc) : Byte :=
  (bit8 d.isChunked <<< 7) ||| (bit8 (d.requestId != 0) <<< 6) ||| (bit8 d.isResponse <<< 5)
    ||| (d.compressionMode.setWidth 8 <<< 3) ||| d.encryptionMode.setWidth 8

/-- `OptSize(flags)` (R65). -/
def optSize (f : Byte) : Nat :=
  4 * (requestFlag f).toNat + 4 * (compressedFlag f).toNat + 12 * (isChunkedFlag f).toNat

/-- The send descriptor's compression mode is a reserved one, 2 or 3 (R71). -/
def reservedCompression (d : TxDesc) : Bool := decide (1 < d.compressionMode.toNat)

/-- The chunk bounds hold, in exact integer arithmetic (R141). -/
def chunkInBounds (coff tot : I32) (payloadLength : Nat) : Bool :=
  decide (0 ≤ coff.toInt) && decide (0 ≤ tot.toInt) && decide (coff.toInt + payloadLength ≤ tot.toInt)

/-- The 8-bit status codes (R241). -/
def Status.code : Status → Byte
  | .ok => 0x00
  | .needMore => 0x01
  | .framingDesync => 0x02
  | .checksumMismatch => 0x03
  | .decodeLength => 0x04
  | .malformedHeader => 0x05
  | .malformedBody => 0x06
  | .chunkBounds => 0x07
  | .dgramLengthMismatch => 0x08
  | .frameTooLarge => 0x09
  | .badOperand => 0x0E
  | .illegalCommand => 0x0F

end Sys2Proof.Machine
end

