-- ==== Sys2Proof/Machine/Operands.lean ====
section
/-! DEFINITION. Operand forms of the wire formats: slices, the fixed header, the optional fields (`30_encoding.md` R62 to
R67, `42_header_codec.md` R129, R138, R140). The byte-order helpers are in `Decode.lean`, shared with command records. -/

namespace Sys2Proof.Machine

/-- `s[a..b)` (R14). -/
def slice (s : Bytes) (a b : Nat) : Bytes := (s.take b).drop a

/-- The 5-byte fixed header: header byte, `dataLength`, `commandOrResponseId` (R60, R62, R44). -/
def fixedHeader (f : Byte) (dataLength id : U16) : Bytes := [f] ++ le16 dataLength ++ le16 id

/-- `dataLength` of a frame, wire bytes 1 and 2 (R62). -/
def wireDataLength (frame : Bytes) : U16 := rd16 frame 1

/-- `commandOrResponseId` of a frame, wire bytes 3 and 4 (R62). -/
def wireId (frame : Bytes) : U16 := rd16 frame 3

/-- The checksum of a stream frame, wire bytes 5 and 6 (R66). -/
def wireChecksum (frame : Bytes) : U16 := rd16 frame 5

/-- `Opt(d, f)`: the optional fields that `f` says are present, in the fixed order of R64 (R129). -/
def optFields (d : TxDesc) (f : Byte) : Bytes :=
  (if requestFlag f then le32 d.requestId else [])
    ++ (if compressedFlag f then le32 d.originalLength else [])
    ++ (if isChunkedFlag f then le32 d.packetId ++ le32 d.chunkOffset ++ le32 d.totalCompressedLength else [])

/-- The offset of `originalLength` among the optional fields: the size of `requestId` where present (R65). -/
def originalLengthOffset (f : Byte) : Nat := 4 * (requestFlag f).toNat

/-- The offset of the chunk fields among the optional fields (R65). -/
def chunkFieldsOffset (f : Byte) : Nat := 4 * (requestFlag f).toNat + 4 * (compressedFlag f).toNat

/-- The optional fields read from `src`, an absent one as 0 (R138, D35). -/
def readOptional (f : Byte) (src : Bytes) : OptionalFields :=
  { requestId := if requestFlag f then rd32 src 0 else 0
    originalLength := if compressedFlag f then rd32 src (originalLengthOffset f) else 0
    packetId := if isChunkedFlag f then rd32 src (chunkFieldsOffset f) else 0
    chunkOffset := if isChunkedFlag f then rd32 src (chunkFieldsOffset f + 4) else 0
    totalCompressedLength := if isChunkedFlag f then rd32 src (chunkFieldsOffset f + 8) else 0 }

end Sys2Proof.Machine
end

