-- ==== Sys2Proof/Machine/Codec.lean ====
section
/-! DEFINITION. The payload codec's functions: byte stuffing, destuffing and the rolling checksum (`41_payload_codec.md`
R100 to R109). The command-local state of `10_state.md` R28 is here as loop variables: `acc` is `ACC`, `gi` is `GI`,
`esc` is `ESC`; none of them survives the command (log 14). -/

namespace Sys2Proof.Machine

/-! ### Encode (R100) -/

/-- A data byte of the encoded form, `b | 0x80`. -/
def stuffByte (b : Byte) : Byte := b ||| 0x80

/-- The escape byte after one more byte of the group: `ESC | (zext_8(b[7]) << GI)`. -/
def escapeWith (esc b : Byte) (gi : Nat) : Byte := esc ||| (bit8 (b.getLsbD 7) <<< gi)

/-- `Encode`, from position `gi` of a group whose escape byte so far is `esc`. A group ends after 7 bytes, or with the
input where at least one byte of it has been emitted (R100, R102). -/
def encodeLoop (gi : Nat) (esc : Byte) : Bytes → Bytes
  | [] => if gi = 0 then [] else [esc]
  | b :: bs =>
    if gi = 6 then stuffByte b :: escapeWith esc b gi :: encodeLoop 0 0x80 bs
    else stuffByte b :: encodeLoop (gi + 1) (escapeWith esc b gi) bs

/-- `Encode(s)` (R100). -/
def payloadEncode (s : Bytes) : Bytes := encodeLoop 0 0x80 s

/-! ### Decode (R101) -/

/-- The data bytes of a group, from group position `gi` on, restored from the escape byte:
`(e & 0x7F) | (ESC[i] << 7)`. -/
def restoreGroup (esc : Byte) (gi : Nat) : Bytes → Bytes
  | [] => []
  | e :: es => ((e &&& 0x7F) ||| (bit8 (esc.getLsbD gi) <<< 7)) :: restoreGroup esc (gi + 1) es

/-- The groups of `Decode`; `group` holds the bytes of the current group read so far. The last byte of a group is its
escape byte: the 8th, or the last of the input. -/
def decodeLoop (group : Bytes) : Bytes → Bytes
  | [] => match group.getLast? with
    | none => []
    | some esc => restoreGroup esc 0 group.dropLast
  | e :: es =>
    if group.length = 7 then restoreGroup e 0 group ++ decodeLoop [] es
    else decodeLoop (group ++ [e]) es

/-- The encoded length is one that no encoder produces (R109). -/
def badEncodedLength (e : Bytes) : Bool := e.length % 8 == 1

/-- `Decode(e)` for a length that R109 does not refuse (R101). -/
def payloadDecode (e : Bytes) : Bytes := decodeLoop [] e

/-- `EncLen(n)` (R106). -/
def encLen (n : Nat) : Nat := n + (n + 6) / 7

/-- `DecLen(m)` (R106). -/
def decLen (m : Nat) : Nat := m - (m + 7) / 8

/-! ### The checksum (R103, R108) -/

/-- `CkByte` (R108). -/
def ckByte (acc : U32) (b : Byte) (gi : Nat) : U32 := acc ^^^ (b.setWidth 32 <<< (8 * (gi % 4)))

/-- `CkGroup` (R108). -/
def ckGroup (acc : U32) (k : Nat) : U32 := acc + acc.rotateLeft 13 + BitVec.ofNat 32 k

/-- `CkFinal` (R108). -/
def ckFinal (acc : U32) : U16 := (acc.extractLsb' 16 16 ^^^ acc.extractLsb' 0 16) ||| 0x0001

/-- The loop of the reference checksum, from position `gi` of a group (R108). -/
def checksumLoop (acc : U32) (gi : Nat) : Bytes → U32
  | [] => if gi = 0 then acc else ckGroup acc gi
  | b :: bs =>
    if gi = 6 then checksumLoop (ckGroup (ckByte acc b gi) 7) 0 bs
    else checksumLoop (ckByte acc b gi) (gi + 1) bs

/-- The reference instantiation of `CHECKSUM_FN` with seed `h0` (R108). -/
def referenceChecksum (h0 : U32) (s : Bytes) : U16 := ckFinal (checksumLoop h0 0 s)

/-- `CHECKSUM_FN(s)` (R103): a function of the raw bytes, with bit 0 forced to 1. For an external function nothing else
is known (log 2). -/
def checksumFn (c : Config.ChecksumChoice) (s : Bytes) : U16 :=
  match c with
  | .reference h0 => referenceChecksum h0 s
  | .external n => Config.externalChecksum n s ||| 0x0001

/-- `CHECKSUM_FN` of this instance. -/
def State.checksum (s : State) (body : Bytes) : U16 := checksumFn s.cfg.checksum body

end Sys2Proof.Machine
end

