-- ==== Sys2Proof/Machine/FrameOps.lean ====
section
/-! DEFINITION. The frame operations (`44_frame_ops.md` R200 to R228): serialize, deserialize and one step of the stream
receive loop. The checks stand in the order of R246: the first that fails gives the status. -/

namespace Sys2Proof.Machine

/-! ### Send (R200, R204) -/

/-- The body of a frame: optional fields, then payload (R18, R129). -/
def txBody (d : TxDesc) (payload : Bytes) : Bytes := optFields d (flagsOf d) ++ payload

/-- The bytes of a stream frame (R66). -/
def streamFrame (cs : U16) (d : TxDesc) (body : Bytes) : Bytes :=
  fixedHeader (flagsOf d) (BitVec.ofNat 16 (encLen body.length + 3)) d.commandOrResponseId
    ++ le16 cs ++ payloadEncode body ++ [0x00]

/-- The stream serializer (R200), over the checksum function `ck`. -/
def serializeTcp (ck : Bytes → U16) (d : TxDesc) (payload : Bytes) : Except Status Bytes :=
  if reservedCompression d then .error .badOperand
  else if 0xFFFF < encLen (txBody d payload).length + 3 then .error .frameTooLarge
  else .ok (streamFrame (ck (txBody d payload)) d (txBody d payload))

/-- The datagram serializer (R204). -/
def serializeUdp (d : TxDesc) (payload : Bytes) : Except Status Bytes :=
  if reservedCompression d then .error .badOperand
  else if 0xFFFF < (txBody d payload).length then .error .frameTooLarge
  else .ok (fixedHeader (flagsOf d) (BitVec.ofNat 16 (txBody d payload).length) d.commandOrResponseId
    ++ txBody d payload)

/-! ### Receive (R210, R214, R218) -/

/-- The `RxResult` of a body whose checks have passed (R210, R79). -/
def rxResult (f : Byte) (dl id cs : U16) (o : OptionalFields) (payload : Bytes) : RxResult :=
  { flags := f, commandOrResponseId := id, dataLength := dl, checksum := cs,
    isChunked := isChunkedFlag f, isRequest := requestFlag f, isResponse := responseFlag f,
    compressionMode := compressionModeField f, encryptionMode := encryptionModeField f,
    requestId := o.requestId, originalLength := o.originalLength, packetId := o.packetId,
    chunkOffset := o.chunkOffset, totalCompressedLength := o.totalCompressedLength, payload := payload }

/-- `BuildResult(f, dl, id, cs, body)` (R210): body split (R140), then the chunk bounds (R141). -/
def buildResult (f : Byte) (dl id cs : U16) (body : Bytes) : Except Status RxResult :=
  if body.length < optSize f then .error .malformedBody
  else
    let o := readOptional f body
    let payload := body.drop (optSize f)
    if isChunkedFlag f && !chunkInBounds o.chunkOffset o.totalCompressedLength payload.length then .error .chunkBounds
    else .ok (rxResult f dl id cs o payload)

/-- The part of `FR_DESERIALIZE_TCP` after the header and framing checks: decode, checksum, result (R214). -/
def deserializeBody (ck : Bytes → U16) (frame : Bytes) : Except Status RxResult :=
  let enc := slice frame 7 (4 + (wireDataLength frame).toNat)
  if badEncodedLength enc then .error .decodeLength
  else if ck (payloadDecode enc) ≠ wireChecksum frame then .error .checksumMismatch
  else buildResult (byteAt frame 0) (wireDataLength frame) (wireId frame) (wireChecksum frame) (payloadDecode enc)

/-- The stream deserializer (R214), over the checksum function `ck`. -/
def deserializeTcp (ck : Bytes → U16) (frame : Bytes) : Except Status RxResult :=
  if frame.length < 7 then .error .malformedHeader
  else if (wireDataLength frame).toNat < 3 then .error .malformedHeader
  else if frame.length ≠ 5 + (wireDataLength frame).toNat then .error .framingDesync
  else if byteAt frame (4 + (wireDataLength frame).toNat) ≠ 0x00 then .error .framingDesync
  else deserializeBody ck frame

/-- The datagram deserializer (R218). -/
def deserializeUdp (dgram : Bytes) : Except Status RxResult :=
  if dgram.length < 5 then .error .dgramLengthMismatch
  else if dgram.length ≠ 5 + (wireDataLength dgram).toNat then .error .dgramLengthMismatch
  else buildResult (byteAt dgram 0) (wireDataLength dgram) (wireId dgram) 0 (dgram.drop 5)

/-! ### Responses of the frame commands -/

/-- The response of a serializer. -/
def State.respondBuilt (s : State) (r : Except Status Bytes) : State :=
  match r with
  | .ok frame => s.respond .ok (.built frame (toU32 frame.length))
  | .error st => s.fail st

/-- The response of a deserializer; the result is present exactly when the status is OK (R79, R216). -/
def State.respondRx (s : State) (r : Except Status RxResult) : State :=
  match r with
  | .ok x => s.respond .ok (.rx x)
  | .error st => s.fail st

/-- The response of `FR_POLL` after a frame of `total` bytes has been consumed (R224). -/
def State.respondPolled (s : State) (total : Nat) (r : Except Status RxResult) : State :=
  match r with
  | .ok x => s.respond .ok (.poll (toU32 total) (some x))
  | .error st => s.respond st (.poll (toU32 total) none)

/-- `FR_POLL`'s resynchronisation: `SkipUntil(offset, 0x00)` and a response that counts the bytes discarded (R224, R226,
R243). -/
def State.resync (s : State) (offset : Nat) (st : Status) : State :=
  let t := s.skipUntil offset 0x00
  t.respond st (.poll (toU32 (s.count - t.count)) none)

/-! ### The commands -/

/-- `FR_SERIALIZE_TCP d, payload` (R200). -/
def execFrSerializeTcp (d : TxDesc) (payload : Bytes) (s : State) : Result :=
  .next (s.respondBuilt (serializeTcp s.checksum d payload))

/-- `FR_SERIALIZE_UDP d, payload` (R204). -/
def execFrSerializeUdp (d : TxDesc) (payload : Bytes) (s : State) : Result :=
  .next (s.respondBuilt (serializeUdp d payload))

/-- `FR_DESERIALIZE_TCP frame` (R214). -/
def execFrDeserializeTcp (frame : Bytes) (s : State) : Result :=
  .next (s.respondRx (deserializeTcp s.checksum frame))

/-- `FR_DESERIALIZE_UDP dgram` (R218). -/
def execFrDeserializeUdp (dgram : Bytes) (s : State) : Result :=
  .next (s.respondRx (deserializeUdp dgram))

/-- `FR_POLL` (R224): one iteration of the stream receive loop. -/
def execFrPoll (s : State) : Result :=
  if s.count < 7 then .next (s.respond .needMore (.poll 0 none))
  else
    let dl := (wireDataLength (s.readRange 0 7)).toNat
    let total := 5 + dl
    if dl < 3 then .next (s.resync 0 .malformedHeader)
    else if s.cap < total then .next (s.resync 0 .frameTooLarge)
    else if s.count < total then .next (s.respond .needMore (.poll 0 none))
    else if s.memRead (s.tail + (total - 1)) ≠ 0x00 then .next (s.resync (total - 1) .framingDesync)
    else .next ((s.consume total).respondPolled total (deserializeTcp s.checksum (s.readRange 0 total)))

end Sys2Proof.Machine
end

