-- ==== Sys2Proof/Machine/HeaderCodec.lean ====
section
/-! DEFINITION. The header codec commands (`42_header_codec.md` R130, R134, R138). They read no block state and write
none (R20). -/

namespace Sys2Proof.Machine

/-- The header `HC_WRITE_HEADER` builds: fixed header and optional fields (R130). -/
def writeHeader (d : TxDesc) (dataLength : U16) : Bytes :=
  fixedHeader (flagsOf d) dataLength d.commandOrResponseId ++ optFields d (flagsOf d)

/-- The header bytes `HC_READ_HEADER` needs: 7 on the stream transport, 5 on the datagram transport (R134). -/
def headerNeed (stream : Bool) : Nat := if stream then 7 else 5

/-- `HC_WRITE_HEADER d, dataLength` (R130). -/
def execHcWriteHeader (d : TxDesc) (dataLength : U16) (s : State) : Result :=
  if reservedCompression d then .next (s.fail .badOperand)
  else .next (s.respond .ok (.built (writeHeader d dataLength) (toU32 (writeHeader d dataLength).length)))

/-- `HC_READ_HEADER stream, src` (R134): no field is checked. -/
def execHcReadHeader (stream : Bool) (src : Bytes) (s : State) : Result :=
  if src.length < headerNeed stream then .next (s.fail .needMore)
  else .next (s.respond .ok (.header (byteAt src 0) (wireId src) (wireDataLength src)
    (if stream then wireChecksum src else 0)))

/-- `HC_READ_OPTIONAL flags, src` (R138). -/
def execHcReadOptional (flags : Byte) (src : Bytes) (s : State) : Result :=
  if src.length < optSize flags then .next (s.fail .malformedBody)
  else .next (s.respond .ok (.optional (readOptional flags src) (toU32 (optSize flags))))

end Sys2Proof.Machine
end

