-- ==== Sys2Proof/Machine/PayloadCodec.lean ====
section
/-! DEFINITION. The payload codec commands (`41_payload_codec.md` R110, R112). They read no ring state and write none
(R20, R32). -/

namespace Sys2Proof.Machine

/-- `PC_ENCODE src` (R110). -/
def execPcEncode (src : Bytes) (s : State) : Result :=
  .next (s.respond .ok (.codec (payloadEncode src) (s.checksum src)))

/-- `PC_DECODE src` (R112): refuses only a length that no encoder produces (R109, R113). -/
def execPcDecode (src : Bytes) (s : State) : Result :=
  if badEncodedLength src then .next (s.fail .decodeLength)
  else .next (s.respond .ok (.codec (payloadDecode src) (s.checksum (payloadDecode src))))

end Sys2Proof.Machine
end

