-- ==== Sys2Proof/Machine/RingBuffer.lean ====
section
/-! DEFINITION. The ring buffer commands (`43_ring_buffer.md` R160 to R176). -/

namespace Sys2Proof.Machine

/-- `RB_WRITE src` (R160): as many bytes as fit go to `(HEAD + i) & MASK`; unread bytes are never overwritten, and the
bytes that do not fit are stored nowhere (R161). -/
def execRbWrite (src : Bytes) (s : State) : Result :=
  let n := min src.length (s.cap - s.count)
  .next (((s.storeFrom s.head (src.take n)).produce n).respond .ok (.written (toU32 n)))

/-- `RB_READ len, skip` (R162, R163): a read that delivers bytes consumes the skipped bytes too; one that delivers
nothing changes no state. -/
def execRbRead (len skip : U32) (s : State) : Result :=
  let n := s.deliverable len.toNat skip.toNat
  if n = 0 then .next (s.respond .ok (.read [] 0))
  else .next ((s.consume (skip.toNat + n)).respond .ok (.read (s.readRange skip.toNat n) (toU32 n)))

/-- `RB_PEEK len, skip` (R164). -/
def execRbPeek (len skip : U32) (s : State) : Result :=
  let n := s.deliverable len.toNat skip.toNat
  if n = 0 then .next (s.respond .ok (.read [] 0))
  else .next (s.respond .ok (.read (s.readRange skip.toNat n) (toU32 n)))

/-- `RB_PEEK_BYTE offset` (R166). -/
def execRbPeekByte (offset : U32) (s : State) : Result :=
  if s.count ≤ offset.toNat then .next (s.respond .ok (.peekByte false 0x00))
  else .next (s.respond .ok (.peekByte true (s.memRead (s.tail + offset.toNat))))

/-- `RB_PEEK_HEADER skip` (R168): the 7-byte stream header at position `skip`, no field checked. -/
def execRbPeekHeader (skip : U32) (s : State) : Result :=
  if s.count < skip.toNat + 7 then .next (s.fail .needMore)
  else
    let h := s.readRange skip.toNat 7
    .next (s.respond .ok (.header (byteAt h 0) (wireId h) (wireDataLength h) (wireChecksum h)))

/-- `RB_SKIP_UNTIL offset, value` (R170). -/
def execRbSkipUntil (offset : U32) (value : Byte) (s : State) : Result :=
  .next ((s.skipUntil offset.toNat value).respond .ok (.found (s.findFrom offset.toNat value).isSome))

/-- `RB_SKIP n` (R172): clamped to `COUNT`. -/
def execRbSkip (n : U32) (s : State) : Result :=
  .next ((s.consume (min n.toNat s.count)).respond .ok .absent)

/-- `RB_STAT` (R176, R30). -/
def execRbStat (s : State) : Result :=
  .next (s.respond .ok (.stat (toU32 s.head) (toU32 s.tail) (toU32 s.count) (toU32 s.cap)))

end Sys2Proof.Machine
end

