-- ==== Sys2Proof/Machine/Dispatch.lean ====
section
/-! DEFINITION. The meaning of every command: one arm for each row of `spec/opcode_table.json`. -/

namespace Sys2Proof.Machine

def exec (i : Instr) (s : State) : Host.Outcome State Fault Refusal :=
  match i with
  | .rbWrite src => Sys2Proof.Machine.execRbWrite src s
  | .rbRead len skip => Sys2Proof.Machine.execRbRead len skip s
  | .rbPeek len skip => Sys2Proof.Machine.execRbPeek len skip s
  | .rbPeekByte offset => Sys2Proof.Machine.execRbPeekByte offset s
  | .rbPeekHeader skip => Sys2Proof.Machine.execRbPeekHeader skip s
  | .rbSkipUntil offset value => Sys2Proof.Machine.execRbSkipUntil offset value s
  | .rbSkip n => Sys2Proof.Machine.execRbSkip n s
  | .rbStat => Sys2Proof.Machine.execRbStat s
  | .pcEncode src => Sys2Proof.Machine.execPcEncode src s
  | .pcDecode src => Sys2Proof.Machine.execPcDecode src s
  | .hcWriteHeader d dataLength => Sys2Proof.Machine.execHcWriteHeader d dataLength s
  | .hcReadHeader stream src => Sys2Proof.Machine.execHcReadHeader stream src s
  | .hcReadOptional flags src => Sys2Proof.Machine.execHcReadOptional flags src s
  | .frSerializeTcp d payload => Sys2Proof.Machine.execFrSerializeTcp d payload s
  | .frSerializeUdp d payload => Sys2Proof.Machine.execFrSerializeUdp d payload s
  | .frDeserializeTcp frame => Sys2Proof.Machine.execFrDeserializeTcp frame s
  | .frDeserializeUdp dgram => Sys2Proof.Machine.execFrDeserializeUdp dgram s
  | .frPoll => Sys2Proof.Machine.execFrPoll s

end Sys2Proof.Machine
end

