-- ==== Sys2Proof/Machine/Step.lean ====
section
/-! DEFINITION. One step of the block: the next presented command, in the order `ARB`, executes atomically (`20_memory.md`
R50, R51). There is no program counter: the command stream comes from the issuers (R27, R56; log 16). -/

namespace Sys2Proof.Machine

/-- Execute the command of a record (R75). -/
def serve (record : Bytes) (s : State) : Host.Outcome State Fault Refusal :=
  match decode record with
  | .ok i => exec i s
  | .error e => rejectRecord e s

/-- One step: a disposed instance has none (R271), a held lock lets no command start (R29), and with nothing presented
the block does nothing (log 10). -/
def step (s : State) : Host.Outcome State Fault Refusal :=
  if s.disposed then .fault .disposed
  else if s.busy then .fault .lockHeld
  else match s.nextRequest with
    | none => .next s
    | some r => serve r.record (s.accept r)

/-- `s` with the instruction whose bits are `w` presented as the only pending command, so that the very next step runs
it (log 16). -/
def State.withFetchWord (s : State) (nbits w : Nat) : State := s.withOnlyRequest (recordOfWord nbits w)

end Sys2Proof.Machine
end

