-- ==== Sys2Proof/Machine/Pseudo.lean ====
section
/-! DEFINITION. The pseudo-commands of `30_encoding.md` R82, each an exact expansion to a command (log 18). -/

namespace Sys2Proof.Machine

/-- `RB_CLEAR` ≡ `RB_SKIP 0xFFFFFFFF` (R82). -/
def pseudoRbClear : Instr := .rbSkip 0xFFFFFFFF

/-- `RB_POP len` ≡ `RB_READ len, 0` (R82). -/
def pseudoRbPop (len : U32) : Instr := .rbRead len 0

/-- `RB_DISCARD_TO v` ≡ `RB_SKIP_UNTIL 0, v` (R82). -/
def pseudoRbDiscardTo (v : Byte) : Instr := .rbSkipUntil 0 v

/-- `PC_CHECKSUM src` ≡ `PC_ENCODE src` (R82), of whose response only `checksumOnly` is kept. -/
def pseudoPcChecksum (src : Bytes) : Instr := .pcEncode src

/-- The part of a response that `PC_CHECKSUM` keeps (R82). -/
def checksumOnly (r : Response) : Option U16 :=
  match r.results with
  | .codec _ cs => some cs
  | _ => none

end Sys2Proof.Machine
end

