-- ==== Sys2Proof/Safety.lean ====
section
/-! DEFINITION. What a safe state and a safe run are: the ring invariants of `10_state.md` R25, the canonical form of
`MEM`, and a clear lock between commands (R29); and the frame predicates the statements are written in. -/

namespace Sys2Proof.Machine

/-! ### Invariants -/

/-- The cursors are indices of `MEM` and agree with the count: `0 ≤ COUNT ≤ C`, `HEAD = (TAIL + COUNT) & MASK` (R23, R24,
R25). -/
abbrev State.cursorsOk (s : State) : Prop :=
  s.head < s.cap ∧ s.tail < s.cap ∧ s.count ≤ s.cap ∧ s.head = s.wrap (s.tail + s.count)

/-- `MEM` is canonical and lists only indices `0 .. C-1` (R22, R48). -/
abbrev State.memOk (s : State) : Prop := Memory.wf s.mem ∧ ∀ c ∈ s.mem, c.1 < s.cap

/-- What holds of the ring at every moment, also while a command holds the lock: the state that `step` gives a command
has `BUSY` set (R29), and the meanings are stated from here. -/
abbrev State.ringOk (s : State) : Prop := s.cursorsOk ∧ s.memOk

/-- The invariant of an instance between commands: the ring is as it should be, and no command is left executing (R25,
R29, R50). -/
abbrev State.Inv (s : State) : Prop := s.ringOk ∧ s.busy = false

/-! ### Frames -/

/-- The configuration, the lifecycle and the interface to the issuers are as they were, but for the responses and the
lock. -/
abbrev State.sameSetting (s t : State) : Prop :=
  t.cfg = s.cfg ∧ t.disposed = s.disposed ∧ t.pending = s.pending ∧ t.schedule = s.schedule ∧ t.served = s.served
    ∧ t.issuer = s.issuer

/-- The persistent ring state of R20 is as it was: every byte of `MEM`, `HEAD`, `TAIL` and `COUNT`. -/
abbrev State.sameRing (s t : State) : Prop :=
  t.mem = s.mem ∧ t.head = s.head ∧ t.tail = s.tail ∧ t.count = s.count

/-- One response with status `st` and results `r` has been returned to the issuer whose command was served, and the lock
is clear (R15, R29, R75; the list of responses is log 9). -/
abbrev State.answered (s t : State) (st : Status) (r : Results) : Prop :=
  t.delivered = { issuer := s.issuer, response := { status := st, results := r } } :: s.delivered ∧ t.busy = false

/-- The command changed nothing but the responses: the ring and the setting are as they were (R20, R46). -/
abbrev State.onlyAnswered (s t : State) (st : Status) (r : Results) : Prop :=
  s.answered t st r ∧ s.sameRing t ∧ s.sameSetting t

/-- Everything but the bytes of `MEM` outside the valid region is the same (R22). -/
def State.sameButInvalidBytes (s t : State) : Prop :=
  { s with mem := t.mem } = t ∧ ∀ i < s.count, s.memRead (s.tail + i) = t.memRead (t.tail + i)

/-- The newest response that has been returned. -/
def State.lastResponse (s : State) : Option Response := s.delivered.head?.map (·.response)

/-! ### Runs -/

/-- A run of commands, each served before the next is presented (R51); `none` where one does not answer a next state. -/
def execAll : List Instr → State → Option State
  | [], s => some s
  | i :: is, s =>
    match exec i s with
    | .next t => execAll is t
    | .fault _ => none
    | .refused _ => none

/-- `n` steps of the block; `none` where one of them stops. -/
def runFor : Nat → State → Option State
  | 0, s => some s
  | n + 1, s =>
    match step s with
    | .next t => runFor n t
    | .fault _ => none
    | .refused _ => none

/-- A run of `n` steps is safe when none of them stops. -/
def State.safeFor (n : Nat) (s : State) : Prop := (runFor n s).isSome = true

end Sys2Proof.Machine
end

