-- ==== Sys2Proof/Certificates/Slice0/Obligations.lean ====
section
/-! DEFINITION. The statements for the provers. `Sys2Proof.Spec` holds the spec's own pseudocode where a statement
compares the machine with it; `Obligations.<Name>` are the statements, each with the rule it formalises. A state that a
statement quantifies over holds `K`, `CHECKSUM_FN`, `PAYLOAD_SIZE` and `ARB`, so each holds for every choice of them
(log 1, 2, 3, 4). A statement about a command holds from the state in which `step` runs it, where
that command holds the lock: its premise is `State.ringOk`, which says nothing of `BUSY`. -/

namespace Sys2Proof.Spec

open Sys2Proof.Machine

/-! ### The payload codec as the pseudocode of R100, R101 and R108 gives it, by groups -/

/-- `ESC` of R100: `0x80`, and bit `GI` is bit 7 of the group's byte `GI`. -/
def groupEscape (g : Bytes) : Byte :=
  (List.range g.length).foldl (fun esc gi => esc ||| ((byteAt g gi >>> 7) <<< gi)) 0x80

/-- `Encode` of R100. -/
def encodeByGroups (s : Bytes) : Bytes :=
  (List.range ((s.length + 6) / 7)).flatMap fun g =>
    ((s.drop (7 * g)).take 7).map (· ||| 0x80) ++ [groupEscape ((s.drop (7 * g)).take 7)]

/-- `Decode` of R101, after its length check. -/
def decodeByGroups (e : Bytes) : Bytes :=
  (List.range ((e.length + 7) / 8)).flatMap fun g =>
    let k := min 8 (e.length - 8 * g) - 1
    (List.range k).map fun gi =>
      (byteAt e (8 * g + gi) &&& 0x7F) ||| (((byteAt e (8 * g + k) >>> gi) &&& 1) <<< 7)

/-- `CHECKSUM_FN` of R108, with `rotl32` as R13 writes it. -/
def checksumByGroups (h0 : U32) (s : Bytes) : U16 :=
  let acc := (List.range ((s.length + 6) / 7)).foldl (fun acc g =>
    let k := min 7 (s.length - 7 * g)
    let acc := (List.range k).foldl
      (fun acc gi => acc ^^^ ((byteAt s (7 * g + gi)).setWidth 32 <<< (8 * (gi % 4)))) acc
    acc + ((acc <<< 13) ||| (acc >>> 19)) + BitVec.ofNat 32 k) h0
  ((acc >>> 16).setWidth 16 ^^^ acc.setWidth 16) ||| 1

/-- Two encoded sequences differ only in bits that R113 says are ignored: bit 7 of a data byte, and bit 7 and bits `k` to
6 of an escape byte whose group has `k` data bytes. -/
def sameUsedBits (e e' : Bytes) : Prop :=
  e.length = e'.length ∧ ∀ j, j < e.length →
    if j % 8 = 7 ∨ j + 1 = e.length then ∀ i, i < j % 8 → (byteAt e j).getLsbD i = (byteAt e' j).getLsbD i
    else ∀ i, i < 7 → (byteAt e j).getLsbD i = (byteAt e' j).getLsbD i

/-! ### The optional fields as the pseudocode of R138 reads them, one after the other -/

/-- One present field is read and passed over; an absent one reads as 0. -/
def nextField (present : Bool) (s : Bytes) : U32 × Bytes := if present then (rd32 s 0, s.drop 4) else (0, s)

/-- `rid`, `orig`, `pid`, `coff` and `tot` of R138. -/
def parseOptional (f : Byte) (src : Bytes) : OptionalFields :=
  let r := nextField (f.getLsbD 6) src
  let o := nextField (f.getLsbD 4 || f.getLsbD 3) r.2
  let p := nextField (f.getLsbD 7) o.2
  let c := nextField (f.getLsbD 7) p.2
  let t := nextField (f.getLsbD 7) c.2
  { requestId := r.1, originalLength := o.1, packetId := p.1, chunkOffset := c.1, totalCompressedLength := t.1 }

/-! ### Checks in order (R246) -/

/-- The status of the first check that fails. -/
def firstFailing : List (Bool × Status) → Option Status
  | [] => none
  | (c, st) :: rest => if c then some st else firstFailing rest

/-- The chunk bounds of R141 fail for a body of header byte `f`. -/
def chunkFails (f : Byte) (body : Bytes) : Bool :=
  let o := parseOptional f body
  f.getLsbD 7 && !decide (0 ≤ o.chunkOffset.toInt ∧ 0 ≤ o.totalCompressedLength.toInt ∧
    o.chunkOffset.toInt + ((body.length - optSize f : Nat) : Int) ≤ o.totalCompressedLength.toInt)

/-- The result R210 builds from the header fields and the body. -/
def resultOf (f : Byte) (dl id cs : U16) (body : Bytes) : RxResult :=
  let o := parseOptional f body
  { flags := f, commandOrResponseId := id, dataLength := dl, checksum := cs, isChunked := f.getLsbD 7,
    isRequest := f.getLsbD 6, isResponse := f.getLsbD 5, compressionMode := BitVec.ofNat 2 (f.toNat / 8),
    encryptionMode := BitVec.ofNat 3 f.toNat, requestId := o.requestId, originalLength := o.originalLength,
    packetId := o.packetId, chunkOffset := o.chunkOffset, totalCompressedLength := o.totalCompressedLength,
    payload := body.drop (optSize f) }

/-- A send descriptor whose chunk fields pass R141 for a payload of this length, or that is not chunked. -/
def chunkFits (d : TxDesc) (payloadLength : Nat) : Prop :=
  d.isChunked = true → 0 ≤ d.chunkOffset.toInt ∧ 0 ≤ d.totalCompressedLength.toInt ∧
    d.chunkOffset.toInt + payloadLength ≤ d.totalCompressedLength.toInt

/-- The result carries the descriptor's fields, an absent optional field as 0 (R79, R143, R144). -/
def carries (r : RxResult) (d : TxDesc) (payload : Bytes) : Prop :=
  r.flags = flagsOf d ∧ r.commandOrResponseId = d.commandOrResponseId ∧ r.isChunked = d.isChunked ∧
    r.isRequest = (d.requestId != 0) ∧ r.isResponse = d.isResponse ∧ r.compressionMode = d.compressionMode ∧
    r.encryptionMode = d.encryptionMode ∧ r.requestId = d.requestId ∧
    r.originalLength = (if d.compressionMode = 0 then 0 else d.originalLength) ∧
    r.packetId = (if d.isChunked then d.packetId else 0) ∧
    r.chunkOffset = (if d.isChunked then d.chunkOffset else 0) ∧
    r.totalCompressedLength = (if d.isChunked then d.totalCompressedLength else 0) ∧ r.payload = payload

/-! ### The stream receive step on the ring's contents (R224) -/

/-- How many bytes `SkipUntil(offset, v)` discards from the valid bytes `q` (R170). -/
def skipCount (q : Bytes) (offset : Nat) (v : Byte) : Nat :=
  match (q.drop offset).findIdx? (· == v) with
  | some i => offset + i + 1
  | none => q.length

/-- The status, the bytes consumed and the result of `FR_POLL` on a ring of capacity `cap` that holds `q` (R224). -/
def pollOutcome (cap : Nat) (ck : Bytes → U16) (q : Bytes) : Status × Nat × Option RxResult :=
  let dl := (rd16 q 1).toNat
  if q.length < 7 then (.needMore, 0, none)
  else if dl < 3 then (.malformedHeader, skipCount q 0 0x00, none)
  else if cap < 5 + dl then (.frameTooLarge, skipCount q 0 0x00, none)
  else if q.length < 5 + dl then (.needMore, 0, none)
  else if byteAt q (4 + dl) ≠ 0x00 then (.framingDesync, skipCount q (4 + dl) 0x00, none)
  else match deserializeTcp ck (q.take (5 + dl)) with
    | .ok r => (.ok, 5 + dl, some r)
    | .error st => (st, 5 + dl, none)

/-! ### Streams of commands -/

/-- The bytes a command offers to the ring. -/
def offered : Instr → Bytes
  | .rbWrite src => src
  | _ => []

/-- Every `RB_WRITE` of a run finds room for all its bytes. -/
def writesFit : List Instr → State → Prop
  | [], _ => True
  | i :: is, s => (offered i).length ≤ s.cap - s.count ∧ ∀ t, exec i s = .next t → writesFit is t

/-- The bytes that `RB_READ` responses delivered, oldest first. -/
def bytesRead (ds : List Delivery) : Bytes :=
  ds.reverse.flatMap fun d => match d.response.results with
    | .read data _ => data
    | _ => []

/-- The statuses each command may return: the column "returned by" of R241. -/
def mayReturn : Instr → List Status
  | .rbPeekHeader _ => [.ok, .needMore]
  | .pcDecode _ => [.ok, .decodeLength]
  | .hcWriteHeader _ _ => [.ok, .badOperand]
  | .hcReadHeader _ _ => [.ok, .needMore]
  | .hcReadOptional _ _ => [.ok, .malformedBody]
  | .frSerializeTcp _ _ => [.ok, .badOperand, .frameTooLarge]
  | .frSerializeUdp _ _ => [.ok, .badOperand, .frameTooLarge]
  | .frDeserializeTcp _ =>
    [.ok, .malformedHeader, .framingDesync, .decodeLength, .checksumMismatch, .malformedBody, .chunkBounds]
  | .frDeserializeUdp _ => [.ok, .dgramLengthMismatch, .malformedBody, .chunkBounds]
  | .frPoll =>
    [.ok, .needMore, .malformedHeader, .frameTooLarge, .framingDesync, .decodeLength, .checksumMismatch,
      .malformedBody, .chunkBounds]
  | _ => [.ok]

/-- The commands that R46 says have no side effect. -/
def isPure : Instr → Bool
  | .rbWrite _ => false
  | .rbRead _ _ => false
  | .rbSkip _ => false
  | .rbSkipUntil _ _ => false
  | .frPoll => false
  | _ => true

/-- The commands that R32 says touch no ring state at all. -/
def readsNoRing : Instr → Bool
  | .pcEncode _ => true
  | .pcDecode _ => true
  | .hcWriteHeader _ _ => true
  | .hcReadHeader _ _ => true
  | .hcReadOptional _ _ => true
  | .frSerializeTcp _ _ => true
  | .frSerializeUdp _ _ => true
  | .frDeserializeTcp _ => true
  | .frDeserializeUdp _ => true
  | _ => false

/-- A record an issuer can present: it starts with an opcode byte that is reserved, or it is a command's record (R75,
R77). -/
def presentable (record : Bytes) : Prop :=
  (∃ i, decode record = .ok i) ∨ (∃ b rest, record = b :: rest ∧ Opcode.ofCode b = none)

end Sys2Proof.Spec

open Sys2Proof Sys2Proof.Machine Sys2Proof.Spec

/-! ## Encoding -/

/-- R75, R76 (the record layout is log 7): decoding the record of any well-formed command gives that command back. -/
def Obligations.DecodeOfEncodeIsTheCommand : Prop :=
  ∀ i : Instr, i.WellFormed → decode (encode i) = .ok i

/-- R75, R76 (log 7): a record has one meaning; what decodes to a command is that command's record, which fits. -/
def Obligations.EncodeOfDecodeIsTheRecord : Prop :=
  ∀ (record : Bytes) (i : Instr), decode record = .ok i → encode i = record ∧ i.WellFormed

/-- R76: the opcode bytes of a few commands, written out (operands by log 7). -/
def Obligations.WrittenOutRecordsDecode : Prop :=
  decode [0x01, 0x02, 0x00, 0x00, 0x00, 0xAA, 0xBB] = .ok (.rbWrite [0xAA, 0xBB]) ∧
  decode [0x06, 0x05, 0x00, 0x00, 0x00, 0xA2] = .ok (.rbSkipUntil 5 0xA2) ∧
  decode [0x11, 0x01, 0x00, 0x00, 0x00, 0x80] = .ok (.pcDecode [0x80]) ∧
  decode [0x22, 0x40, 0x00, 0x00, 0x00, 0x00] = .ok (.hcReadOptional 0x40 []) ∧
  decode [0x33, 0x01, 0x00, 0x00, 0x00, 0x07] = .ok (.frDeserializeUdp [0x07]) ∧
  decode [0x34] = .ok .frPoll ∧ decode [0x09] = .error (.reservedOpcode 0x09)

/-- R244, R77: a presented command whose opcode is none of the 18 answers ILLEGAL_COMMAND, changes no state and leaves
the block ready. (Presented commands and returned responses are lists of State by log 9 and 10.) -/
def Obligations.ReservedOpcodeAnswersIllegalCommand : Prop :=
  ∀ (s : State) (r : Request) (b : Byte) (rest : Bytes), s.disposed = false → s.busy = false →
    s.nextRequest = some r → r.record = b :: rest →
    b.toNat ∉ [1, 2, 3, 4, 5, 6, 7, 8, 0x10, 0x11, 0x20, 0x21, 0x22, 0x30, 0x31, 0x32, 0x33, 0x34] →
    ∃ t, step s = .next t ∧ s.sameRing t ∧ t.cfg = s.cfg ∧ t.disposed = false ∧ t.busy = false ∧
      t.delivered = { issuer := r.issuer, response := { status := .illegalCommand, results := .absent } } :: s.delivered

/-! ## Steps, requests, reset -/

/-- R29, R50, R51, R56: a step runs the command that the chosen record decodes to, on the state in which that command has
taken the lock; the ring, the parameters, the lifecycle and the earlier responses are as they were. The other clauses are
the model's choice, not the spec's: that `issuer` names whose command it is (log 9), that it leaves the list `pending`
(log 10), and that the `schedule` of `ARB` moves on by one entry and the counter `served` by one (log 4). -/
def Obligations.StepRunsTheDecodedCommand : Prop :=
  ∀ (s : State) (r : Request) (i : Instr), s.disposed = false → s.busy = false → s.nextRequest = some r →
    decode r.record = .ok i →
    ∃ u, step s = exec i u ∧ s.sameRing u ∧ u.cfg = s.cfg ∧ u.disposed = s.disposed ∧ u.delivered = s.delivered ∧
      u.busy = true ∧ u.issuer = r.issuer ∧ u.pending = s.pending.eraseIdx s.choice ∧
      u.schedule = s.schedule.tail ∧ u.served = s.served + 1

/-- R51, R247, R285: of several presented commands exactly one is served by a step and answered once, to its own issuer;
the responses already returned stay as they are. That presented commands and responses are lists of State is the model's
choice (log 9, 10), and so is the second clause: `ARB` is a schedule whose entry can name any of the commands (log 4). -/
def Obligations.StepServesOneOfThePending : Prop :=
  (∀ s t : State, s.pending ≠ [] → step s = .next t →
    ∃ (n : Nat) (r : Request) (p : Response), s.pending[n]? = some r ∧ t.pending = s.pending.eraseIdx n ∧
      t.delivered = { issuer := r.issuer, response := p } :: s.delivered) ∧
  (∀ (s : State) (n : Nat) (rest : List Nat), n < s.pending.length → s.schedule = n :: rest →
    s.nextRequest = s.pending[n]?)

/-- R271, I14, R29 (log 10, 11, 12): a disposed instance has no step, holds nothing and accepts no command; while the lock
is held no command starts; and, the model's choice, with nothing presented a step of a live instance changes nothing. -/
def Obligations.StepsWithoutService : Prop :=
  (∀ (s : State) (n : Nat) (record : Bytes),
    step (s.dispose.present n record) = .fault .disposed ∧ (s.dispose.present n record).pending = s.pending ∧
      s.dispose.validBytes = []) ∧
  (∀ s : State, s.disposed = false → s.busy = true → step s = .fault .lockHeld) ∧
  (∀ s : State, s.disposed = false → s.busy = false → s.pending = [] → step s = .next s)

/-- R270, R31 (`MEM` listing nothing is the model's choice, log 5): a created instance has its cursors at 0, its lock
clear, its parameters as given, and meets the invariant; so does `State.reset`. -/
def Obligations.CreatedInstanceMeetsTheInvariant : Prop :=
  (∀ c : Config.Setup, (State.create c).Inv ∧ (State.create c).cfg = c ∧ (State.create c).head = 0 ∧
    (State.create c).tail = 0 ∧ (State.create c).count = 0 ∧ (State.create c).busy = false) ∧
  State.reset.Inv

/-- R25: `COUNT` is 0 in a created instance; every command preserves `0 ≤ COUNT ≤ C` and
`HEAD = (TAIL + COUNT) & MASK`, the lock held or not before it, and leaves the lock clear; the valid bytes are
`MEM[(TAIL + i) & MASK]` for `i < COUNT`; and `HEAD = TAIL` exactly in an empty or a full ring. -/
def Obligations.EveryCommandPreservesTheRingInvariants : Prop :=
  (∀ c : Config.Setup, (State.create c).count = 0 ∧ (State.create c).Inv) ∧
  (∀ (i : Instr) (s : State), s.ringOk → ∃ t, exec i s = .next t ∧ t.Inv ∧
    t.count ≤ 2 ^ t.cfg.k ∧ t.head = (t.tail + t.count) &&& (2 ^ t.cfg.k - 1)) ∧
  (∀ s : State, s.validBytes.length = s.count ∧ ∀ i, i < s.count →
    s.validBytes[i]? = some (Memory.read s.mem ((s.tail + i) &&& (2 ^ s.cfg.k - 1)))) ∧
  (∀ s : State, s.ringOk → (s.head = s.tail ↔ s.count = 0 ∨ s.count = 2 ^ s.cfg.k))

/-- R25, R26, R29, R50: every step, whatever is presented, keeps the invariant (ring invariants, canonical `MEM` inside
its `C` indices, lock clear) and the parameters. -/
def Obligations.StepKeepsTheInvariant : Prop :=
  ∀ s t : State, s.Inv → step s = .next t → t.Inv ∧ t.cfg = s.cfg

/-- R240, R271: no run of a live instance whose presented records are presentable ever stops. -/
def Obligations.PresentableRunsAreSafe : Prop :=
  ∀ (n : Nat) (s : State), s.Inv → s.disposed = false → (∀ r ∈ s.pending, presentable r.record) → s.safeFor n

/-- R240: every command, in every state, ends with exactly one response to the issuer it serves; no command faults. -/
def Obligations.EveryCommandEndsWithOneResponse : Prop :=
  ∀ (i : Instr) (s : State), ∃ t st r, exec i s = .next t ∧ s.answered t st r ∧ s.sameSetting t

/-- R241, columns "code" and "returned by": the codes as numbered, no two statuses sharing one, and each command returns
only the statuses listed for it. -/
def Obligations.StatusesAreThoseOfTheTable : Prop :=
  (List.map (fun st : Status => st.code.toNat)
    [.ok, .needMore, .framingDesync, .checksumMismatch, .decodeLength, .malformedHeader, .malformedBody, .chunkBounds,
      .dgramLengthMismatch, .frameTooLarge, .badOperand, .illegalCommand]
    = [0, 1, 2, 3, 4, 5, 6, 7, 8, 9, 0x0E, 0x0F]) ∧
  (∀ st st' : Status, st.code = st'.code → st = st') ∧
  (∀ (i : Instr) (s t : State) (p : Response), exec i s = .next t → t.lastResponse = some p →
    p.status ∈ mayReturn i)

/-! ## Ring buffer -/

/-- R160: what fits is appended at `HEAD`, the rest is stored nowhere, and every other byte of `MEM` keeps its value. -/
def Obligations.RbWriteAppendsWhatFits : Prop :=
  ∀ (src : Bytes) (s : State), s.ringOk →
    let n := min src.length (2 ^ s.cfg.k - s.count)
    ∃ t w, exec (.rbWrite src) s = .next t ∧ s.answered t .ok (.written w) ∧ (n < 2 ^ 32 → w.toNat = n) ∧
      t.validBytes = s.validBytes ++ src.take n ∧
      t.head = (s.head + n) &&& (2 ^ s.cfg.k - 1) ∧ t.tail = s.tail ∧ t.count = s.count + n ∧
      (∀ i, i < n → Memory.read t.mem (s.wrap (s.head + i)) = byteAt src i) ∧
      (∀ a, (∀ i, i < n → a ≠ s.wrap (s.head + i)) → Memory.read t.mem a = Memory.read s.mem a) ∧
      s.sameSetting t

/-- R162, R163: in exact integers, `n = min(len, COUNT - skip)`; a read with `n > 0` delivers the `n` valid bytes after
the first `skip` and consumes `skip + n`; a read with `n ≤ 0` delivers nothing and changes no state. -/
def Obligations.RbReadDeliversAndConsumes : Prop :=
  ∀ (len skip : U32) (s : State),
    let n : Int := min (len.toNat : Int) ((s.count : Int) - skip.toNat)
    (n ≤ 0 → ∃ t, exec (.rbRead len skip) s = .next t ∧ s.onlyAnswered t .ok (.read [] 0)) ∧
    (0 < n → ∃ t data w, exec (.rbRead len skip) s = .next t ∧ s.answered t .ok (.read data w) ∧ (w.toNat : Int) = n ∧
      data = (s.validBytes.drop skip.toNat).take n.toNat ∧ (data.length : Int) = n ∧
      t.tail = (s.tail + skip.toNat + n.toNat) &&& (2 ^ s.cfg.k - 1) ∧ (t.count : Int) = s.count - (skip.toNat + n) ∧
      t.head = s.head ∧ t.mem = s.mem ∧ s.sameSetting t)

/-- R164: a peek delivers what a read would, and changes no state. -/
def Obligations.RbPeekDeliversAndKeeps : Prop :=
  ∀ (len skip : U32) (s : State),
    let n : Int := min (len.toNat : Int) ((s.count : Int) - skip.toNat)
    ∃ t data w, exec (.rbPeek len skip) s = .next t ∧ s.onlyAnswered t .ok (.read data w) ∧
      data = (s.validBytes.drop skip.toNat).take n.toNat ∧ w.toNat = n.toNat ∧ data.length = n.toNat

/-- R166: the byte at `offset`, or `valid = false` with byte 0 where there is none. -/
def Obligations.RbPeekByteShowsOneByte : Prop :=
  ∀ (offset : U32) (s : State), ∃ t, exec (.rbPeekByte offset) s = .next t ∧
    s.onlyAnswered t .ok (match s.validBytes[offset.toNat]? with
      | some b => .peekByte true b
      | none => .peekByte false 0x00)

/-- R168: the 7 valid bytes at `skip` as `HC_READ_HEADER true` reads them, or NEED_MORE where they are not all there. -/
def Obligations.RbPeekHeaderReadsTheStreamHeader : Prop :=
  ∀ (skip : U32) (s : State),
    let h := (s.validBytes.drop skip.toNat).take 7
    ((s.count : Int) - skip.toNat < 7 →
      ∃ t, exec (.rbPeekHeader skip) s = .next t ∧ s.onlyAnswered t .needMore .absent) ∧
    (7 ≤ (s.count : Int) - skip.toNat →
      ∃ t, exec (.rbPeekHeader skip) s = .next t ∧
        s.onlyAnswered t .ok (.header (byteAt h 0) (rd16 h 3) (rd16 h 1) (rd16 h 5)) ∧
        exec (.hcReadHeader true h) s = .next t)

/-- R170: the first `value` at or after `offset` and everything before it is discarded, `found = true`; where there is
none, every valid byte is discarded and `TAIL = HEAD`, `found = false`. -/
def Obligations.RbSkipUntilDiscardsThroughTheMatch : Prop :=
  ∀ (offset : U32) (value : Byte) (s : State),
    ∃ t b, exec (.rbSkipUntil offset value) s = .next t ∧ s.answered t .ok (.found b) ∧ t.mem = s.mem ∧
      t.head = s.head ∧ s.sameSetting t ∧
      ((b = true ∧ ∃ i, offset.toNat ≤ i ∧ s.validBytes[i]? = some value ∧
          (∀ j, offset.toNat ≤ j → j < i → s.validBytes[j]? ≠ some value) ∧
          t.tail = (s.tail + i + 1) &&& (2 ^ s.cfg.k - 1) ∧ t.count = s.count - (i + 1) ∧
          t.validBytes = s.validBytes.drop (i + 1)) ∨
       (b = false ∧ (∀ j, offset.toNat ≤ j → s.validBytes[j]? ≠ some value) ∧
          t.tail = s.head ∧ t.count = 0 ∧ t.validBytes = []))

/-- R172: `min(n, COUNT)` bytes are discarded, no more. -/
def Obligations.RbSkipDiscardsClamped : Prop :=
  ∀ (n : U32) (s : State), ∃ t, exec (.rbSkip n) s = .next t ∧ s.answered t .ok .absent ∧
    t.tail = (s.tail + min n.toNat s.count) &&& (2 ^ s.cfg.k - 1) ∧ t.count = s.count - min n.toNat s.count ∧
    t.validBytes = s.validBytes.drop n.toNat ∧ t.head = s.head ∧ t.mem = s.mem ∧ s.sameSetting t

/-- R176: `RB_STAT` answers in every state and changes none; the results are the cursors and the capacity,
zero-extended to 32 bits, for every capacity that a 32-bit `CAP` can show (beyond it they are free, log 6). -/
def Obligations.RbStatShowsTheCursors : Prop :=
  ∀ s : State, ∃ t h l c m, exec .rbStat s = .next t ∧ s.onlyAnswered t .ok (.stat h l c m) ∧
    (s.ringOk → s.cfg.k < 32 → h.toNat = s.head ∧ l.toNat = s.tail ∧ c.toNat = s.count ∧ m.toNat = 2 ^ s.cfg.k)

/-- R272, R82: `RB_CLEAR` empties the ring, leaves `HEAD = TAIL` at the current `HEAD`, and leaves `MEM` unchanged. -/
def Obligations.RbClearEmptiesTheRing : Prop :=
  ∀ s : State, s.ringOk → s.count < 2 ^ 32 → ∃ t, exec pseudoRbClear s = .next t ∧ s.answered t .ok .absent ∧
    t.validBytes = [] ∧ t.count = 0 ∧ t.head = s.head ∧ t.tail = s.head ∧ t.mem = s.mem ∧ s.sameSetting t

/-- R273: the ring commands of a created instance. -/
def Obligations.CommandsOfAFreshInstance : Prop :=
  ∀ (c : Config.Setup) (len skip : U32) (v : Byte),
    let s := State.create c
    (∃ t, exec (.rbRead len skip) s = .next t ∧ s.onlyAnswered t .ok (.read [] 0)) ∧
    (∃ t, exec (.rbPeek len skip) s = .next t ∧ s.onlyAnswered t .ok (.read [] 0)) ∧
    (∃ t, exec (.rbPeekByte skip) s = .next t ∧ s.onlyAnswered t .ok (.peekByte false 0)) ∧
    (∃ t, exec (.rbPeekHeader skip) s = .next t ∧ s.onlyAnswered t .needMore .absent) ∧
    (∃ t, exec .frPoll s = .next t ∧ s.onlyAnswered t .needMore (.poll 0 none)) ∧
    (∃ t, exec (.rbSkipUntil skip v) s = .next t ∧ s.onlyAnswered t .ok (.found false)) ∧
    (∃ t, exec (.rbSkip len) s = .next t ∧ s.onlyAnswered t .ok .absent)

/-- R52: whatever commands run, where every write fits, the bytes that have left the ring are, in order, the first of
the bytes that were in it and were written. -/
def Obligations.BytesLeaveInTheOrderWritten : Prop :=
  ∀ (is : List Instr) (s : State), s.ringOk → writesFit is s →
    ∃ t removed, execAll is s = some t ∧ t.ringOk ∧ (s.busy = false → t.busy = false) ∧
      s.validBytes ++ is.flatMap offered = removed ++ t.validBytes

/-- R174: over fitting `RB_WRITE`s and `RB_READ len, 0`s, the bytes read and then the bytes left are the bytes there were
and then the bytes written; from an empty ring, the bytes read are a prefix of the bytes written. -/
def Obligations.ReadsReturnWhatWasWrittenInOrder : Prop :=
  ∀ (is : List Instr) (s : State), s.ringOk → writesFit is s →
    (∀ i ∈ is, (∃ src, i = .rbWrite src) ∨ ∃ len, i = .rbRead len 0) →
    ∃ t new, execAll is s = some t ∧ t.delivered = new ++ s.delivered ∧
      s.validBytes ++ is.flatMap offered = bytesRead new ++ t.validBytes ∧
      (s.count = 0 → bytesRead new <+: is.flatMap offered)

/-- R22, R270: what a command answers, and what the ring holds after it, depends on the ring's contents alone: not on a
byte of `MEM` outside the valid region, and not on where in `MEM` the contents lie. `RB_STAT` shows the cursors. -/
def Obligations.OnlyTheContentsAreObserved : Prop :=
  ∀ (i : Instr) (s s' : State), s.ringOk → s'.ringOk → s.cfg = s'.cfg → s.validBytes = s'.validBytes → i ≠ .rbStat →
    ∃ t t', exec i s = .next t ∧ exec i s' = .next t' ∧ t.lastResponse = t'.lastResponse ∧
      t.validBytes = t'.validBytes

/-- R22: two states that differ only in bytes of `MEM` outside the valid region get the same response from every command,
and again differ only there: an unspecified byte is never observed. -/
def Obligations.InvalidBytesAreNeverObserved : Prop :=
  ∀ (i : Instr) (s s' : State), s.ringOk → s'.ringOk → s.sameButInvalidBytes s' →
    ∃ t t', exec i s = .next t ∧ exec i s' = .next t' ∧ t.sameButInvalidBytes t'

/-- R23, R24: only `RB_WRITE` changes `HEAD` or a byte of `MEM`; only `RB_READ`, `RB_SKIP`, `RB_SKIP_UNTIL` and `FR_POLL`
change `TAIL`. -/
def Obligations.OnlyTheNamedCommandsMoveTheCursors : Prop :=
  ∀ (i : Instr) (s t : State), exec i s = .next t →
    ((t.head ≠ s.head ∨ t.mem ≠ s.mem) → ∃ src, i = .rbWrite src) ∧
    (t.tail ≠ s.tail → (∃ len skip, i = .rbRead len skip) ∨ (∃ n, i = .rbSkip n) ∨
      (∃ offset v, i = .rbSkipUntil offset v) ∨ i = .frPoll)

/-- R26: the capacity of a requested `c ≥ 1` is the next power of two, 898 gives `K = 10` and 3000 gives `K = 12`, and no
command writes `K`, so `MASK` and `CAP` are constants. -/
def Obligations.CapacityIsTheNextPowerOfTwo : Prop :=
  (∀ c : Nat, 1 ≤ c → c ≤ 2 ^ capacityLog2 c ∧ ∀ j, c ≤ 2 ^ j → capacityLog2 c ≤ j) ∧
  capacityLog2 898 = 10 ∧ capacityLog2 3000 = 12 ∧
  (∀ (i : Instr) (s t : State), exec i s = .next t → t.cfg.k = s.cfg.k ∧ t.cap = 2 ^ s.cfg.k ∧ t.mask = t.cap - 1)

/-! ## Payload codec -/

/-- R105: every encoded byte is in `0x80 .. 0xFF`, so none is `0x00`. -/
def Obligations.EncodedBytesAreNeverZero : Prop :=
  ∀ (s : Bytes), ∀ b ∈ payloadEncode s, 0x80 ≤ b.toNat ∧ b ≠ 0x00

/-- R106: the length functions, that they are inverse, and that no encoded length is 1 modulo 8. -/
def Obligations.CodecLengths : Prop :=
  (∀ s : Bytes, (payloadEncode s).length = s.length + (s.length + 6) / 7) ∧
  (∀ e : Bytes, e.length % 8 ≠ 1 → (payloadDecode e).length = e.length - (e.length + 7) / 8) ∧
  (∀ n : Nat, decLen (encLen n) = n ∧ encLen n % 8 ≠ 1) ∧
  (∀ s : Bytes, (payloadEncode s).length = encLen s.length)

/-- R107: `PC_DECODE` of what `PC_ENCODE` gives returns the input and the same checksum; the converse does not hold. -/
def Obligations.CodecRoundTrip : Prop :=
  (∀ (src : Bytes) (s : State), ∃ t u dst cs, exec (.pcEncode src) s = .next t ∧
    s.onlyAnswered t .ok (.codec dst cs) ∧ exec (.pcDecode dst) s = .next u ∧
    s.onlyAnswered u .ok (.codec src cs)) ∧
  (∃ e e' : Bytes, e ≠ e' ∧ e.length % 8 ≠ 1 ∧ e'.length % 8 ≠ 1 ∧ payloadDecode e = payloadDecode e')

/-- R113: `PC_DECODE` decodes, and does not refuse, an input whose data bytes or escape bytes have bit 7 clear or whose
unused escape bits are not 0: it answers what it answers with those bits at any other value. -/
def Obligations.DecodeIgnoresUnusedBits : Prop :=
  (∀ (e e' : Bytes) (s : State), e.length % 8 ≠ 1 → sameUsedBits e e' →
    ∃ t u dst cs, exec (.pcDecode e) s = .next t ∧ s.onlyAnswered t .ok (.codec dst cs) ∧
      exec (.pcDecode e') s = .next u ∧ s.onlyAnswered u .ok (.codec dst cs)) ∧
  payloadDecode [0x01, 0x80] = [0x01] ∧ payloadDecode [0x81, 0x80] = [0x01]

/-- R103, R104: bit 0 of the checksum is 1, whatever the checksum function, so its low byte is not `0x00`, and a frame
whose checksum field has bit 0 clear is never accepted. -/
def Obligations.ChecksumTagBit : Prop :=
  (∀ (c : Config.ChecksumChoice) (s : Bytes), (checksumFn c s).getLsbD 0 = true ∧ byteAt (le16 (checksumFn c s)) 0 ≠ 0) ∧
  (∀ (s : State) (frame : Bytes), (rd16 frame 5).getLsbD 0 = false →
    ∃ t st, exec (.frDeserializeTcp frame) s = .next t ∧ st ≠ .ok ∧ s.onlyAnswered t st .absent)

/-- R108: the reference instantiation is the pseudocode's, for every seed; with the reference seed, of the empty
sequence it is `0x444D` and of `41 42 43` it is `0xC275`. -/
def Obligations.ReferenceChecksumIsGroupwise : Prop :=
  (∀ (h0 : U32) (s : Bytes), checksumFn (.reference h0) s = checksumByGroups h0 s) ∧
  checksumFn (.reference 0x12345678) [] = 0x444D ∧ checksumFn (.reference 0x12345678) [0x41, 0x42, 0x43] = 0xC275

/-- R110, R100: `PC_ENCODE` answers the encoding, group by group as the pseudocode gives it, and the checksum of the raw
bytes, and changes no state. -/
def Obligations.PcEncodeAnswers : Prop :=
  ∀ (src : Bytes) (s : State), ∃ t, exec (.pcEncode src) s = .next t ∧
    s.onlyAnswered t .ok (.codec (encodeByGroups src) (checksumFn s.cfg.checksum src))

/-- R112, R101, R109: `PC_DECODE` answers DECODE_LENGTH where the length is 1 modulo 8, and otherwise the decoded bytes,
group by group as the pseudocode gives them, and their checksum; it changes no state. -/
def Obligations.PcDecodeAnswers : Prop :=
  ∀ (src : Bytes) (s : State),
    (src.length % 8 = 1 → ∃ t, exec (.pcDecode src) s = .next t ∧ s.onlyAnswered t .decodeLength .absent) ∧
    (src.length % 8 ≠ 1 → ∃ t, exec (.pcDecode src) s = .next t ∧
      s.onlyAnswered t .ok (.codec (decodeByGroups src) (checksumFn s.cfg.checksum (decodeByGroups src))))

/-! ## Header codec -/

/-- R61, R60, R143: the header byte is the sum of its fields, and each field reads back from it. -/
def Obligations.HeaderByteFields : Prop :=
  ∀ d : TxDesc,
    (flagsOf d).toNat = 128 * d.isChunked.toNat + 64 * (d.requestId != 0).toNat + 32 * d.isResponse.toNat
      + 8 * d.compressionMode.toNat + d.encryptionMode.toNat ∧
    isChunkedFlag (flagsOf d) = d.isChunked ∧ requestFlag (flagsOf d) = (d.requestId != 0) ∧
    responseFlag (flagsOf d) = d.isResponse ∧ compressionModeField (flagsOf d) = d.compressionMode ∧
    encryptionModeField (flagsOf d) = d.encryptionMode

/-- R65, R129, R132: the sizes of the optional fields and of the written header. -/
def Obligations.HeaderLengths : Prop :=
  (∀ f : Byte, optSize f = 4 * (f.getLsbD 6).toNat + 4 * (f.getLsbD 4 || f.getLsbD 3).toNat
      + 12 * (f.getLsbD 7).toNat ∧ optSize f ∈ [0, 4, 8, 12, 16, 20]) ∧
  (∀ d : TxDesc, (optFields d (flagsOf d)).length = optSize (flagsOf d)) ∧
  (∀ (d : TxDesc) (dl : U16), (writeHeader d dl).length = 5 + optSize (flagsOf d) ∧
    (writeHeader d dl).length ∈ [5, 9, 13, 17, 21, 25])

/-- R130: `HC_WRITE_HEADER` refuses the reserved compression modes and otherwise answers header byte, header word and
optional fields; it changes no state. -/
def Obligations.HcWriteHeaderAnswers : Prop :=
  ∀ (d : TxDesc) (dl : U16) (s : State),
    (1 < d.compressionMode.toNat →
      ∃ t, exec (.hcWriteHeader d dl) s = .next t ∧ s.onlyAnswered t .badOperand .absent) ∧
    (d.compressionMode.toNat ≤ 1 → ∃ t hdr n, exec (.hcWriteHeader d dl) s = .next t ∧
      s.onlyAnswered t .ok (.built hdr n) ∧ n.toNat = hdr.length ∧
      hdr = [flagsOf d] ++ le16 dl ++ le16 d.commandOrResponseId
        ++ (if d.requestId = 0 then [] else le32 d.requestId)
        ++ (if d.compressionMode = 0 then [] else le32 d.originalLength)
        ++ (if d.isChunked then le32 d.packetId ++ le32 d.chunkOffset ++ le32 d.totalCompressedLength else []))

/-- R134: `HC_READ_HEADER` answers the leading fields as read, or NEED_MORE; it changes no state. -/
def Obligations.HcReadHeaderAnswers : Prop :=
  ∀ (stream : Bool) (src : Bytes) (s : State),
    let need := if stream then 7 else 5
    (src.length < need → ∃ t, exec (.hcReadHeader stream src) s = .next t ∧ s.onlyAnswered t .needMore .absent) ∧
    (need ≤ src.length → ∃ t, exec (.hcReadHeader stream src) s = .next t ∧
      s.onlyAnswered t .ok (.header (byteAt src 0) (rd16 src 3) (rd16 src 1) (if stream then rd16 src 5 else 0)))

/-- R138: `HC_READ_OPTIONAL` answers the fields read one after the other, an absent one as 0, or MALFORMED_BODY; it
changes no state. -/
def Obligations.HcReadOptionalAnswers : Prop :=
  ∀ (flags : Byte) (src : Bytes) (s : State),
    (src.length < optSize flags →
      ∃ t, exec (.hcReadOptional flags src) s = .next t ∧ s.onlyAnswered t .malformedBody .absent) ∧
    (optSize flags ≤ src.length → ∃ t n, exec (.hcReadOptional flags src) s = .next t ∧ n.toNat = optSize flags ∧
      s.onlyAnswered t .ok (.optional (parseOptional flags src) n))

/-- R144: what `HC_WRITE_HEADER` wrote, `HC_READ_HEADER` and `HC_READ_OPTIONAL` read back. -/
def Obligations.HeaderRoundTrip : Prop :=
  ∀ (d : TxDesc) (dl : U16) (s : State), d.compressionMode.toNat ≤ 1 →
    ∃ t u v h n m, exec (.hcWriteHeader d dl) s = .next t ∧ s.onlyAnswered t .ok (.built h n) ∧
      exec (.hcReadHeader false h) s = .next u ∧
      s.onlyAnswered u .ok (.header (flagsOf d) d.commandOrResponseId dl 0) ∧
      exec (.hcReadOptional (flagsOf d) (h.drop 5)) s = .next v ∧ m.toNat = h.length - 5 ∧
      s.onlyAnswered v .ok (.optional
        { requestId := d.requestId
          originalLength := if d.compressionMode = 0 then 0 else d.originalLength
          packetId := if d.isChunked then d.packetId else 0
          chunkOffset := if d.isChunked then d.chunkOffset else 0
          totalCompressedLength := if d.isChunked then d.totalCompressedLength else 0 } m)

/-! ## Frame operations -/

/-- R200, R202: `FR_SERIALIZE_TCP` refuses the reserved compression modes, then a body over 57340 bytes, and otherwise
answers the stream frame of R66; it changes no state. -/
def Obligations.FrSerializeTcpAnswers : Prop :=
  ∀ (d : TxDesc) (payload : Bytes) (s : State),
    let body := optFields d (flagsOf d) ++ payload
    let e := body.length + (body.length + 6) / 7
    (1 < d.compressionMode.toNat →
      ∃ t, exec (.frSerializeTcp d payload) s = .next t ∧ s.onlyAnswered t .badOperand .absent) ∧
    (d.compressionMode.toNat ≤ 1 → 57340 < body.length →
      ∃ t, exec (.frSerializeTcp d payload) s = .next t ∧ s.onlyAnswered t .frameTooLarge .absent) ∧
    (d.compressionMode.toNat ≤ 1 → body.length ≤ 57340 →
      ∃ t frame n, exec (.frSerializeTcp d payload) s = .next t ∧ s.onlyAnswered t .ok (.built frame n) ∧
        n.toNat = frame.length ∧ frame.length = e + 8 ∧ (rd16 frame 1).toNat = e + 3 ∧
        frame = [flagsOf d] ++ le16 (BitVec.ofNat 16 (e + 3)) ++ le16 d.commandOrResponseId
          ++ le16 (checksumFn s.cfg.checksum body) ++ encodeByGroups body ++ [0x00])

/-- R204: `FR_SERIALIZE_UDP` refuses the reserved compression modes, then a body over 65535 bytes, and otherwise answers
`HC_WRITE_HEADER`'s header for the body's length and then the payload; it changes no state. -/
def Obligations.FrSerializeUdpAnswers : Prop :=
  ∀ (d : TxDesc) (payload : Bytes) (s : State),
    let body := optFields d (flagsOf d) ++ payload
    (1 < d.compressionMode.toNat →
      ∃ t, exec (.frSerializeUdp d payload) s = .next t ∧ s.onlyAnswered t .badOperand .absent) ∧
    (d.compressionMode.toNat ≤ 1 → 0xFFFF < body.length →
      ∃ t, exec (.frSerializeUdp d payload) s = .next t ∧ s.onlyAnswered t .frameTooLarge .absent) ∧
    (d.compressionMode.toNat ≤ 1 → body.length ≤ 0xFFFF →
      ∃ t u frame hdr n m, exec (.frSerializeUdp d payload) s = .next t ∧ s.onlyAnswered t .ok (.built frame n) ∧
        n.toNat = frame.length ∧ (rd16 frame 1).toNat = body.length ∧ frame.length = 5 + body.length ∧
        exec (.hcWriteHeader d (BitVec.ofNat 16 body.length)) s = .next u ∧
        s.onlyAnswered u .ok (.built hdr m) ∧ frame = hdr ++ payload)

/-- R214, R210, R246: `FR_DESERIALIZE_TCP` answers the status of the first check that fails, or the result R210 builds;
it changes no state. -/
def Obligations.FrDeserializeTcpAnswers : Prop :=
  ∀ (frame : Bytes) (s : State),
    let dl := (rd16 frame 1).toNat
    let enc := (frame.take (4 + dl)).drop 7
    let body := decodeByGroups enc
    ∃ t, exec (.frDeserializeTcp frame) s = .next t ∧
      match firstFailing [(decide (frame.length < 7), .malformedHeader), (decide (dl < 3), .malformedHeader),
          (decide (frame.length ≠ 5 + dl), .framingDesync), (byteAt frame (4 + dl) != 0x00, .framingDesync),
          (enc.length % 8 == 1, .decodeLength), (checksumFn s.cfg.checksum body != rd16 frame 5, .checksumMismatch),
          (decide (body.length < optSize (byteAt frame 0)), .malformedBody),
          (chunkFails (byteAt frame 0) body, .chunkBounds)] with
      | some st => s.onlyAnswered t st .absent
      | none => s.onlyAnswered t .ok
          (.rx (resultOf (byteAt frame 0) (rd16 frame 1) (rd16 frame 3) (rd16 frame 5) body))

/-- R218, R210, R246: `FR_DESERIALIZE_UDP` answers the status of the first check that fails, or the result R210 builds
with checksum 0; it changes no state. -/
def Obligations.FrDeserializeUdpAnswers : Prop :=
  ∀ (dgram : Bytes) (s : State),
    let dl := (rd16 dgram 1).toNat
    let body := dgram.drop 5
    ∃ t, exec (.frDeserializeUdp dgram) s = .next t ∧
      match firstFailing [(decide (dgram.length < 5), .dgramLengthMismatch),
          (decide (dgram.length ≠ 5 + dl), .dgramLengthMismatch),
          (decide (body.length < optSize (byteAt dgram 0)), .malformedBody),
          (chunkFails (byteAt dgram 0) body, .chunkBounds)] with
      | some st => s.onlyAnswered t st .absent
      | none => s.onlyAnswered t .ok (.rx (resultOf (byteAt dgram 0) (rd16 dgram 1) (rd16 dgram 3) 0 body))

/-- R200, R214 (R107, R144): a stream frame that the block serialized, it deserializes to the descriptor and payload. -/
def Obligations.StreamFrameRoundTrip : Prop :=
  ∀ (d : TxDesc) (payload : Bytes) (s : State), d.compressionMode.toNat ≤ 1 →
    (optFields d (flagsOf d) ++ payload).length ≤ 57340 → chunkFits d payload.length →
    ∃ t u frame n r, exec (.frSerializeTcp d payload) s = .next t ∧ s.onlyAnswered t .ok (.built frame n) ∧
      exec (.frDeserializeTcp frame) s = .next u ∧ s.onlyAnswered u .ok (.rx r) ∧ carries r d payload ∧
      r.checksum = checksumFn s.cfg.checksum (optFields d (flagsOf d) ++ payload)

/-- R204, R218 (R144): a datagram that the block serialized, it deserializes to the descriptor and payload. -/
def Obligations.DatagramRoundTrip : Prop :=
  ∀ (d : TxDesc) (payload : Bytes) (s : State), d.compressionMode.toNat ≤ 1 →
    (optFields d (flagsOf d) ++ payload).length ≤ 0xFFFF → chunkFits d payload.length →
    ∃ t u frame n r, exec (.frSerializeUdp d payload) s = .next t ∧ s.onlyAnswered t .ok (.built frame n) ∧
      exec (.frDeserializeUdp frame) s = .next u ∧ s.onlyAnswered u .ok (.rx r) ∧ carries r d payload ∧
      r.checksum = 0

/-- R224, R226: `FR_POLL` is the pseudocode's step on the ring's contents: its status, its result, and the bytes it
consumes from the front; `MEM` and `HEAD` are unchanged; and once a frame is consumed, it is neither MALFORMED_HEADER nor
FRAMING_DESYNC. -/
def Obligations.FrPollActsOnTheContents : Prop :=
  ∀ s : State, s.ringOk →
    let p := pollOutcome (2 ^ s.cfg.k) (checksumFn s.cfg.checksum) s.validBytes
    ∃ t w, exec .frPoll s = .next t ∧ s.answered t p.1 (.poll w p.2.2) ∧ (p.2.1 < 2 ^ 32 → w.toNat = p.2.1) ∧
      t.validBytes = s.validBytes.drop p.2.1 ∧ t.count = s.count - p.2.1 ∧
      t.tail = (s.tail + p.2.1) &&& (2 ^ s.cfg.k - 1) ∧ t.head = s.head ∧ t.mem = s.mem ∧ s.sameSetting t ∧
      (p.1 = .malformedHeader → (rd16 s.validBytes 1).toNat < 3) ∧
      (p.1 = .framingDesync → byteAt s.validBytes (4 + (rd16 s.validBytes 1).toNat) ≠ 0x00)

/-- R228: every outcome of `FR_POLL` but NEED_MORE consumes at least one byte, and at least `total ≥ 8` bytes
unless it is MALFORMED_HEADER or FRAME_TOO_LARGE; NEED_MORE changes nothing, and with a header there whose frame fits the ring it says
that the ring is not full; and a run of `COUNT + 1` polls with nothing written between reaches NEED_MORE. -/
def Obligations.FrPollMakesProgress : Prop :=
  (∀ s : State, s.ringOk → ∃ t st r, exec .frPoll s = .next t ∧ s.answered t st r ∧
    (st = .needMore → s.sameRing t ∧
      (7 ≤ s.count → 5 + (rd16 s.validBytes 1).toNat ≤ 2 ^ s.cfg.k →
        s.count < 5 + (rd16 s.validBytes 1).toNat ∧ s.count < 2 ^ s.cfg.k)) ∧
    (st ≠ .needMore → t.count + 1 ≤ s.count) ∧
    (st ≠ .needMore → st ≠ .malformedHeader → st ≠ .frameTooLarge →
      8 ≤ 5 + (rd16 s.validBytes 1).toNat ∧ t.count + (5 + (rd16 s.validBytes 1).toNat) ≤ s.count)) ∧
  (∀ s : State, s.ringOk → ∃ t w, execAll (List.replicate (s.count + 1) .frPoll) s = some t ∧
    t.lastResponse = some { status := .needMore, results := .poll w none })

/-- R231: with `K < 3`, `FR_POLL` always answers NEED_MORE and changes nothing, so a full ring stays full; and a frame
that claims more than `C` bytes is discarded with FRAME_TOO_LARGE. -/
def Obligations.RingTooSmallForAFrame : Prop :=
  (∀ s : State, s.ringOk → s.cfg.k < 3 → s.count ≤ 4 ∧
    ∃ t, exec .frPoll s = .next t ∧ s.onlyAnswered t .needMore (.poll 0 none)) ∧
  (∀ s : State, s.ringOk → 7 ≤ s.count → 2 ^ s.cfg.k < 5 + (rd16 s.validBytes 1).toNat →
    ∃ t w, exec .frPoll s = .next t ∧ s.answered t .frameTooLarge (.poll w none) ∧ t.count < s.count)

/-- R280: with `K ≥ 3` a full ring is never stuck: `FR_POLL` consumes at least one byte. -/
def Obligations.FullRingIsNeverStuck : Prop :=
  ∀ s : State, s.ringOk → 3 ≤ s.cfg.k → s.count = 2 ^ s.cfg.k →
    ∃ t st r, exec .frPoll s = .next t ∧ s.answered t st r ∧ st ≠ .needMore ∧ t.count < s.count

/-- R224, R200: `FR_POLL` delivers a serialized frame that stands at the front of the ring, consumes exactly it, and
leaves what follows. -/
def Obligations.FrPollDeliversASerializedFrame : Prop :=
  ∀ (d : TxDesc) (payload frame rest : Bytes) (s : State), s.ringOk → chunkFits d payload.length →
    serializeTcp (checksumFn s.cfg.checksum) d payload = .ok frame → s.validBytes = frame ++ rest →
    ∃ t w r, exec .frPoll s = .next t ∧ s.answered t .ok (.poll w (some r)) ∧ w.toNat = frame.length ∧
      carries r d payload ∧ t.validBytes = rest ∧ t.mem = s.mem ∧ t.head = s.head ∧ s.sameSetting t

/-- R286, R105: where the `dataLength` of a serialized stream frame is lowered to another claim of at least 3, the claimed
end lies inside the zero-free encoded body, and `FR_POLL` reports FRAMING_DESYNC. -/
def Obligations.LoweredLengthIsCaught : Prop :=
  ∀ (d : TxDesc) (payload frame rest : Bytes) (claim : U16) (s : State), s.ringOk →
    serializeTcp (checksumFn s.cfg.checksum) d payload = .ok frame → 3 ≤ claim.toNat →
    claim.toNat < (rd16 frame 1).toNat →
    s.validBytes = [byteAt frame 0] ++ le16 claim ++ frame.drop 3 ++ rest →
    ∃ t w, exec .frPoll s = .next t ∧ s.answered t .framingDesync (.poll w none) ∧ t.count < s.count

/-- R233 for every descriptor, payload, capacity and cut: a serialized frame that fits the ring, written in non-empty
pieces of any sizes with one `FR_POLL` after each, is answered NEED_MORE until the last piece and then delivered whole. -/
def Obligations.FrameInPiecesIsDeliveredOnce : Prop :=
  ∀ (d : TxDesc) (payload frame : Bytes) (pieces : List Bytes) (s : State), s.ringOk → s.count = 0 →
    chunkFits d payload.length → serializeTcp (checksumFn s.cfg.checksum) d payload = .ok frame →
    frame.length ≤ 2 ^ s.cfg.k → (∀ p ∈ pieces, p ≠ []) → pieces.flatten = frame →
    ∃ t w r new, execAll (pieces.flatMap fun p => [.rbWrite p, .frPoll]) s = some t ∧
      t.delivered = { issuer := s.issuer, response := { status := .ok, results := .poll w (some r) } } ::
        (new ++ s.delivered) ∧ w.toNat = frame.length ∧ carries r d payload ∧ t.count = 0 ∧
      ∀ x ∈ new, (∃ n, x.response = { status := .ok, results := .written n }) ∨
        x.response = { status := .needMore, results := .poll 0 none }

/-! ## Whole-machine rules -/

/-- R46: a command without side effect changes no state but its response, and answers the same again. -/
def Obligations.PureCommandsAreIdempotent : Prop :=
  ∀ (i : Instr) (s : State), isPure i = true →
    ∃ t u st r, exec i s = .next t ∧ s.onlyAnswered t st r ∧ exec i t = .next u ∧ t.onlyAnswered u st r

/-- R32: the header codec, payload codec and stateless frame commands answer the same whatever the ring holds. -/
def Obligations.StatelessCommandsIgnoreTheRing : Prop :=
  ∀ (i : Instr) (s s' : State), readsNoRing i = true → s.cfg.checksum = s'.cfg.checksum →
    ∃ t t' st r, exec i s = .next t ∧ exec i s' = .next t' ∧ s.onlyAnswered t st r ∧ s'.onlyAnswered t' st r

/-- R207: the block never reads `PAYLOAD_SIZE`: another value changes nothing that any command does. -/
def Obligations.PayloadSizeIsNeverRead : Prop :=
  ∀ (i : Instr) (s : State) (p : Nat), ∃ t, exec i s = .next t ∧
    exec i { s with cfg := { s.cfg with payloadSize := p } } = .next { t with cfg := { t.cfg with payloadSize := p } }
end

