-- ==== Sys2Proof/Laws/State.lean ====
section
/-! SUPPORT. One lemma per field per update of `State`, each true by `rfl`, so that no later proof unfolds a record
update. -/

namespace Sys2Proof.Machine

/-! ### `State.respond` -/

@[simp] theorem State.respond_cfg (s : State) (st : Status) (r : Results) :
    (s.respond st r).cfg = s.cfg := rfl

@[simp] theorem State.respond_mem (s : State) (st : Status) (r : Results) :
    (s.respond st r).mem = s.mem := rfl

@[simp] theorem State.respond_head (s : State) (st : Status) (r : Results) :
    (s.respond st r).head = s.head := rfl

@[simp] theorem State.respond_tail (s : State) (st : Status) (r : Results) :
    (s.respond st r).tail = s.tail := rfl

@[simp] theorem State.respond_count (s : State) (st : Status) (r : Results) :
    (s.respond st r).count = s.count := rfl

@[simp] theorem State.respond_busy (s : State) (st : Status) (r : Results) :
    (s.respond st r).busy = false := rfl

@[simp] theorem State.respond_disposed (s : State) (st : Status) (r : Results) :
    (s.respond st r).disposed = s.disposed := rfl

@[simp] theorem State.respond_pending (s : State) (st : Status) (r : Results) :
    (s.respond st r).pending = s.pending := rfl

@[simp] theorem State.respond_schedule (s : State) (st : Status) (r : Results) :
    (s.respond st r).schedule = s.schedule := rfl

@[simp] theorem State.respond_served (s : State) (st : Status) (r : Results) :
    (s.respond st r).served = s.served := rfl

@[simp] theorem State.respond_issuer (s : State) (st : Status) (r : Results) :
    (s.respond st r).issuer = s.issuer := rfl

@[simp] theorem State.respond_delivered (s : State) (st : Status) (r : Results) :
    (s.respond st r).delivered = { issuer := s.issuer, response := { status := st, results := r } } :: s.delivered := rfl

/-! ### `State.fail` -/

@[simp] theorem State.fail_cfg (s : State) (st : Status) :
    (s.fail st).cfg = s.cfg := rfl

@[simp] theorem State.fail_mem (s : State) (st : Status) :
    (s.fail st).mem = s.mem := rfl

@[simp] theorem State.fail_head (s : State) (st : Status) :
    (s.fail st).head = s.head := rfl

@[simp] theorem State.fail_tail (s : State) (st : Status) :
    (s.fail st).tail = s.tail := rfl

@[simp] theorem State.fail_count (s : State) (st : Status) :
    (s.fail st).count = s.count := rfl

@[simp] theorem State.fail_busy (s : State) (st : Status) :
    (s.fail st).busy = false := rfl

@[simp] theorem State.fail_disposed (s : State) (st : Status) :
    (s.fail st).disposed = s.disposed := rfl

@[simp] theorem State.fail_pending (s : State) (st : Status) :
    (s.fail st).pending = s.pending := rfl

@[simp] theorem State.fail_schedule (s : State) (st : Status) :
    (s.fail st).schedule = s.schedule := rfl

@[simp] theorem State.fail_served (s : State) (st : Status) :
    (s.fail st).served = s.served := rfl

@[simp] theorem State.fail_issuer (s : State) (st : Status) :
    (s.fail st).issuer = s.issuer := rfl

@[simp] theorem State.fail_delivered (s : State) (st : Status) :
    (s.fail st).delivered = { issuer := s.issuer, response := { status := st, results := .absent } } :: s.delivered := rfl

/-! ### `State.consume` -/

@[simp] theorem State.consume_cfg (s : State) (n : Nat) :
    (s.consume n).cfg = s.cfg := rfl

@[simp] theorem State.consume_mem (s : State) (n : Nat) :
    (s.consume n).mem = s.mem := rfl

@[simp] theorem State.consume_head (s : State) (n : Nat) :
    (s.consume n).head = s.head := rfl

@[simp] theorem State.consume_tail (s : State) (n : Nat) :
    (s.consume n).tail = s.wrap (s.tail + n) := rfl

@[simp] theorem State.consume_count (s : State) (n : Nat) :
    (s.consume n).count = s.count - n := rfl

@[simp] theorem State.consume_busy (s : State) (n : Nat) :
    (s.consume n).busy = s.busy := rfl

@[simp] theorem State.consume_disposed (s : State) (n : Nat) :
    (s.consume n).disposed = s.disposed := rfl

@[simp] theorem State.consume_pending (s : State) (n : Nat) :
    (s.consume n).pending = s.pending := rfl

@[simp] theorem State.consume_schedule (s : State) (n : Nat) :
    (s.consume n).schedule = s.schedule := rfl

@[simp] theorem State.consume_served (s : State) (n : Nat) :
    (s.consume n).served = s.served := rfl

@[simp] theorem State.consume_issuer (s : State) (n : Nat) :
    (s.consume n).issuer = s.issuer := rfl

@[simp] theorem State.consume_delivered (s : State) (n : Nat) :
    (s.consume n).delivered = s.delivered := rfl

/-! ### `State.produce` -/

@[simp] theorem State.produce_cfg (s : State) (n : Nat) :
    (s.produce n).cfg = s.cfg := rfl

@[simp] theorem State.produce_mem (s : State) (n : Nat) :
    (s.produce n).mem = s.mem := rfl

@[simp] theorem State.produce_head (s : State) (n : Nat) :
    (s.produce n).head = s.wrap (s.head + n) := rfl

@[simp] theorem State.produce_tail (s : State) (n : Nat) :
    (s.produce n).tail = s.tail := rfl

@[simp] theorem State.produce_count (s : State) (n : Nat) :
    (s.produce n).count = s.count + n := rfl

@[simp] theorem State.produce_busy (s : State) (n : Nat) :
    (s.produce n).busy = s.busy := rfl

@[simp] theorem State.produce_disposed (s : State) (n : Nat) :
    (s.produce n).disposed = s.disposed := rfl

@[simp] theorem State.produce_pending (s : State) (n : Nat) :
    (s.produce n).pending = s.pending := rfl

@[simp] theorem State.produce_schedule (s : State) (n : Nat) :
    (s.produce n).schedule = s.schedule := rfl

@[simp] theorem State.produce_served (s : State) (n : Nat) :
    (s.produce n).served = s.served := rfl

@[simp] theorem State.produce_issuer (s : State) (n : Nat) :
    (s.produce n).issuer = s.issuer := rfl

@[simp] theorem State.produce_delivered (s : State) (n : Nat) :
    (s.produce n).delivered = s.delivered := rfl

/-! ### `State.memWrite` -/

@[simp] theorem State.memWrite_cfg (s : State) (i : Nat) (v : Byte) :
    (s.memWrite i v).cfg = s.cfg := rfl

@[simp] theorem State.memWrite_mem (s : State) (i : Nat) (v : Byte) :
    (s.memWrite i v).mem = Memory.write s.mem (s.wrap i) v := rfl

@[simp] theorem State.memWrite_head (s : State) (i : Nat) (v : Byte) :
    (s.memWrite i v).head = s.head := rfl

@[simp] theorem State.memWrite_tail (s : State) (i : Nat) (v : Byte) :
    (s.memWrite i v).tail = s.tail := rfl

@[simp] theorem State.memWrite_count (s : State) (i : Nat) (v : Byte) :
    (s.memWrite i v).count = s.count := rfl

@[simp] theorem State.memWrite_busy (s : State) (i : Nat) (v : Byte) :
    (s.memWrite i v).busy = s.busy := rfl

@[simp] theorem State.memWrite_disposed (s : State) (i : Nat) (v : Byte) :
    (s.memWrite i v).disposed = s.disposed := rfl

@[simp] theorem State.memWrite_pending (s : State) (i : Nat) (v : Byte) :
    (s.memWrite i v).pending = s.pending := rfl

@[simp] theorem State.memWrite_schedule (s : State) (i : Nat) (v : Byte) :
    (s.memWrite i v).schedule = s.schedule := rfl

@[simp] theorem State.memWrite_served (s : State) (i : Nat) (v : Byte) :
    (s.memWrite i v).served = s.served := rfl

@[simp] theorem State.memWrite_issuer (s : State) (i : Nat) (v : Byte) :
    (s.memWrite i v).issuer = s.issuer := rfl

@[simp] theorem State.memWrite_delivered (s : State) (i : Nat) (v : Byte) :
    (s.memWrite i v).delivered = s.delivered := rfl

/-! ### `State.discardAll` -/

@[simp] theorem State.discardAll_cfg (s : State) :
    (s.discardAll).cfg = s.cfg := rfl

@[simp] theorem State.discardAll_mem (s : State) :
    (s.discardAll).mem = s.mem := rfl

@[simp] theorem State.discardAll_head (s : State) :
    (s.discardAll).head = s.head := rfl

@[simp] theorem State.discardAll_tail (s : State) :
    (s.discardAll).tail = s.head := rfl

@[simp] theorem State.discardAll_count (s : State) :
    (s.discardAll).count = 0 := rfl

@[simp] theorem State.discardAll_busy (s : State) :
    (s.discardAll).busy = s.busy := rfl

@[simp] theorem State.discardAll_disposed (s : State) :
    (s.discardAll).disposed = s.disposed := rfl

@[simp] theorem State.discardAll_pending (s : State) :
    (s.discardAll).pending = s.pending := rfl

@[simp] theorem State.discardAll_schedule (s : State) :
    (s.discardAll).schedule = s.schedule := rfl

@[simp] theorem State.discardAll_served (s : State) :
    (s.discardAll).served = s.served := rfl

@[simp] theorem State.discardAll_issuer (s : State) :
    (s.discardAll).issuer = s.issuer := rfl

@[simp] theorem State.discardAll_delivered (s : State) :
    (s.discardAll).delivered = s.delivered := rfl

/-! ### `State.accept` -/

@[simp] theorem State.accept_cfg (s : State) (r : Request) :
    (s.accept r).cfg = s.cfg := rfl

@[simp] theorem State.accept_mem (s : State) (r : Request) :
    (s.accept r).mem = s.mem := rfl

@[simp] theorem State.accept_head (s : State) (r : Request) :
    (s.accept r).head = s.head := rfl

@[simp] theorem State.accept_tail (s : State) (r : Request) :
    (s.accept r).tail = s.tail := rfl

@[simp] theorem State.accept_count (s : State) (r : Request) :
    (s.accept r).count = s.count := rfl

@[simp] theorem State.accept_busy (s : State) (r : Request) :
    (s.accept r).busy = true := rfl

@[simp] theorem State.accept_disposed (s : State) (r : Request) :
    (s.accept r).disposed = s.disposed := rfl

@[simp] theorem State.accept_pending (s : State) (r : Request) :
    (s.accept r).pending = s.pending.eraseIdx s.choice := rfl

@[simp] theorem State.accept_schedule (s : State) (r : Request) :
    (s.accept r).schedule = s.schedule.tail := rfl

@[simp] theorem State.accept_served (s : State) (r : Request) :
    (s.accept r).served = s.served + 1 := rfl

@[simp] theorem State.accept_issuer (s : State) (r : Request) :
    (s.accept r).issuer = r.issuer := rfl

@[simp] theorem State.accept_delivered (s : State) (r : Request) :
    (s.accept r).delivered = s.delivered := rfl

/-! ### `State.dispose` -/

@[simp] theorem State.dispose_cfg (s : State) :
    (s.dispose).cfg = s.cfg := rfl

@[simp] theorem State.dispose_mem (s : State) :
    (s.dispose).mem = [] := rfl

@[simp] theorem State.dispose_head (s : State) :
    (s.dispose).head = 0 := rfl

@[simp] theorem State.dispose_tail (s : State) :
    (s.dispose).tail = 0 := rfl

@[simp] theorem State.dispose_count (s : State) :
    (s.dispose).count = 0 := rfl

@[simp] theorem State.dispose_busy (s : State) :
    (s.dispose).busy = false := rfl

@[simp] theorem State.dispose_disposed (s : State) :
    (s.dispose).disposed = true := rfl

@[simp] theorem State.dispose_pending (s : State) :
    (s.dispose).pending = s.pending := rfl

@[simp] theorem State.dispose_schedule (s : State) :
    (s.dispose).schedule = s.schedule := rfl

@[simp] theorem State.dispose_served (s : State) :
    (s.dispose).served = s.served := rfl

@[simp] theorem State.dispose_issuer (s : State) :
    (s.dispose).issuer = s.issuer := rfl

@[simp] theorem State.dispose_delivered (s : State) :
    (s.dispose).delivered = s.delivered := rfl

/-! ### `State.withOnlyRequest` -/

@[simp] theorem State.withOnlyRequest_cfg (s : State) (record : Bytes) :
    (s.withOnlyRequest record).cfg = s.cfg := rfl

@[simp] theorem State.withOnlyRequest_mem (s : State) (record : Bytes) :
    (s.withOnlyRequest record).mem = s.mem := rfl

@[simp] theorem State.withOnlyRequest_head (s : State) (record : Bytes) :
    (s.withOnlyRequest record).head = s.head := rfl

@[simp] theorem State.withOnlyRequest_tail (s : State) (record : Bytes) :
    (s.withOnlyRequest record).tail = s.tail := rfl

@[simp] theorem State.withOnlyRequest_count (s : State) (record : Bytes) :
    (s.withOnlyRequest record).count = s.count := rfl

@[simp] theorem State.withOnlyRequest_busy (s : State) (record : Bytes) :
    (s.withOnlyRequest record).busy = false := rfl

@[simp] theorem State.withOnlyRequest_disposed (s : State) (record : Bytes) :
    (s.withOnlyRequest record).disposed = false := rfl

@[simp] theorem State.withOnlyRequest_pending (s : State) (record : Bytes) :
    (s.withOnlyRequest record).pending = [{ issuer := 0, record := record }] := rfl

@[simp] theorem State.withOnlyRequest_schedule (s : State) (record : Bytes) :
    (s.withOnlyRequest record).schedule = s.schedule := rfl

@[simp] theorem State.withOnlyRequest_served (s : State) (record : Bytes) :
    (s.withOnlyRequest record).served = s.served := rfl

@[simp] theorem State.withOnlyRequest_issuer (s : State) (record : Bytes) :
    (s.withOnlyRequest record).issuer = s.issuer := rfl

@[simp] theorem State.withOnlyRequest_delivered (s : State) (record : Bytes) :
    (s.withOnlyRequest record).delivered = s.delivered := rfl

/-! ### `State.create` and `State.reset` -/

@[simp] theorem State.create_cfg (c : Config.Setup) : (State.create c).cfg = c := rfl

@[simp] theorem State.create_mem (c : Config.Setup) : (State.create c).mem = [] := rfl

@[simp] theorem State.create_head (c : Config.Setup) : (State.create c).head = 0 := rfl

@[simp] theorem State.create_tail (c : Config.Setup) : (State.create c).tail = 0 := rfl

@[simp] theorem State.create_count (c : Config.Setup) : (State.create c).count = 0 := rfl

@[simp] theorem State.create_busy (c : Config.Setup) : (State.create c).busy = false := rfl

@[simp] theorem State.create_disposed (c : Config.Setup) : (State.create c).disposed = false := rfl

@[simp] theorem State.create_pending (c : Config.Setup) : (State.create c).pending = [] := rfl

@[simp] theorem State.create_schedule (c : Config.Setup) : (State.create c).schedule = [] := rfl

@[simp] theorem State.create_served (c : Config.Setup) : (State.create c).served = 0 := rfl

@[simp] theorem State.create_issuer (c : Config.Setup) : (State.create c).issuer = 0 := rfl

@[simp] theorem State.create_delivered (c : Config.Setup) : (State.create c).delivered = [] := rfl

/-! ### What depends on the configuration alone -/

theorem State.cap_congr {s t : State} (h : t.cfg = s.cfg) : t.cap = s.cap := by rw [State.cap, State.cap, h]

theorem State.mask_congr {s t : State} (h : t.cfg = s.cfg) : t.mask = s.mask := by
  rw [State.mask, State.mask, State.cap_congr h]

theorem State.wrap_congr {s t : State} (h : t.cfg = s.cfg) (i : Nat) : t.wrap i = s.wrap i := by
  rw [State.wrap, State.wrap, State.mask_congr h]

/-- A read depends on the configuration and the memory alone. -/
theorem State.memRead_congr {s t : State} (hc : t.cfg = s.cfg) (hm : t.mem = s.mem) (i : Nat) :
    t.memRead i = s.memRead i := by rw [State.memRead, State.memRead, hm, State.wrap_congr hc]

/-- A range read depends on the configuration, the memory and `TAIL` alone. -/
theorem State.readRange_congr {s t : State} (hc : t.cfg = s.cfg) (hm : t.mem = s.mem) (ht : t.tail = s.tail)
    (start n : Nat) : t.readRange start n = s.readRange start n := by
  simp only [State.readRange, State.memRead_congr hc hm, ht]

/-- The checksum function depends on the configuration alone. -/
theorem State.checksum_congr {s t : State} (h : t.cfg = s.cfg) (b : Bytes) : t.checksum b = s.checksum b := by
  rw [State.checksum, State.checksum, h]

@[simp] theorem State.respond_cap (s : State) (st : Status) (r : Results) : (s.respond st r).cap = s.cap := rfl

@[simp] theorem State.respond_wrap (s : State) (st : Status) (r : Results) (j : Nat) : (s.respond st r).wrap j = s.wrap j := rfl

@[simp] theorem State.fail_cap (s : State) (st : Status) : (s.fail st).cap = s.cap := rfl

@[simp] theorem State.fail_wrap (s : State) (st : Status) (j : Nat) : (s.fail st).wrap j = s.wrap j := rfl

@[simp] theorem State.consume_cap (s : State) (n : Nat) : (s.consume n).cap = s.cap := rfl

@[simp] theorem State.consume_wrap (s : State) (n : Nat) (j : Nat) : (s.consume n).wrap j = s.wrap j := rfl

@[simp] theorem State.produce_cap (s : State) (n : Nat) : (s.produce n).cap = s.cap := rfl

@[simp] theorem State.produce_wrap (s : State) (n : Nat) (j : Nat) : (s.produce n).wrap j = s.wrap j := rfl

@[simp] theorem State.memWrite_cap (s : State) (i : Nat) (v : Byte) : (s.memWrite i v).cap = s.cap := rfl

@[simp] theorem State.memWrite_wrap (s : State) (i : Nat) (v : Byte) (j : Nat) : (s.memWrite i v).wrap j = s.wrap j := rfl

@[simp] theorem State.discardAll_cap (s : State) : (s.discardAll).cap = s.cap := rfl

@[simp] theorem State.discardAll_wrap (s : State) (j : Nat) : (s.discardAll).wrap j = s.wrap j := rfl

@[simp] theorem State.accept_cap (s : State) (r : Request) : (s.accept r).cap = s.cap := rfl

@[simp] theorem State.accept_wrap (s : State) (r : Request) (j : Nat) : (s.accept r).wrap j = s.wrap j := rfl

@[simp] theorem State.dispose_cap (s : State) : (s.dispose).cap = s.cap := rfl

@[simp] theorem State.dispose_wrap (s : State) (j : Nat) : (s.dispose).wrap j = s.wrap j := rfl

@[simp] theorem State.withOnlyRequest_cap (s : State) (record : Bytes) : (s.withOnlyRequest record).cap = s.cap := rfl

@[simp] theorem State.withOnlyRequest_wrap (s : State) (record : Bytes) (j : Nat) : (s.withOnlyRequest record).wrap j = s.wrap j := rfl

end Sys2Proof.Machine
end

