-- ==== Sys2Proof/Laws/Bytes.lean ====
section
/-! SUPPORT. Byte sequences: `byteAt`, and that the little-endian readers undo the writers (R14, R43). -/

namespace Sys2Proof

@[simp] theorem byteAt_zero (b : Byte) (s : Bytes) : byteAt (b :: s) 0 = b := rfl

@[simp] theorem byteAt_succ (b : Byte) (s : Bytes) (i : Nat) : byteAt (b :: s) (i + 1) = byteAt s i := by
  simp [byteAt]

theorem byteAt_append_right (s t : Bytes) (i : Nat) : byteAt (s ++ t) (s.length + i) = byteAt t i := by
  simp [byteAt, List.getD_eq_getElem?_getD, List.getElem?_append_right]

theorem byteAt_append_left {s : Bytes} (t : Bytes) {i : Nat} (h : i < s.length) : byteAt (s ++ t) i = byteAt s i := by
  simp [byteAt, List.getD_eq_getElem?_getD, List.getElem?_append_left h]

theorem byteAt_eq_getElem {s : Bytes} {i : Nat} (h : i < s.length) : byteAt s i = s[i] := by
  simp [byteAt, List.getD_eq_getElem?_getD, h]

@[simp] theorem byteAt_drop (s : Bytes) (n i : Nat) : byteAt (s.drop n) i = byteAt s (n + i) := by
  simp [byteAt, List.getD_eq_getElem?_getD]

theorem byteAt_take {s : Bytes} {n i : Nat} (h : i < n) : byteAt (s.take n) i = byteAt s i := by
  simp [byteAt, List.getD_eq_getElem?_getD, h]

theorem byteAt_of_le {s : Bytes} {i : Nat} (h : s.length ≤ i) : byteAt s i = 0 := by
  simp [byteAt, List.getD_eq_getElem?_getD, h]

@[simp] theorem le16_length (v : U16) : (le16 v).length = 2 := rfl

@[simp] theorem le32_length (v : U32) : (le32 v).length = 4 := rfl

@[simp] theorem rd16_drop (s : Bytes) (n o : Nat) : rd16 (s.drop n) o = rd16 s (n + o) := by
  simp only [rd16, byteAt_drop, Nat.add_assoc]

@[simp] theorem rd32_drop (s : Bytes) (n o : Nat) : rd32 (s.drop n) o = rd32 s (n + o) := by
  simp only [rd32, byteAt_drop, Nat.add_assoc]

theorem rd16_append_right (s t : Bytes) (o : Nat) : rd16 (s ++ t) (s.length + o) = rd16 t o := by
  simp only [rd16, byteAt_append_right, Nat.add_assoc]

theorem rd32_append_right (s t : Bytes) (o : Nat) : rd32 (s ++ t) (s.length + o) = rd32 t o := by
  simp only [rd32, byteAt_append_right, Nat.add_assoc]

theorem rd16_take {s : Bytes} {n o : Nat} (h : o + 1 < n) : rd16 (s.take n) o = rd16 s o := by
  rw [rd16, rd16, byteAt_take (by omega), byteAt_take h]

theorem rd16_append_left {s : Bytes} (t : Bytes) {o : Nat} (h : o + 1 < s.length) : rd16 (s ++ t) o = rd16 s o := by
  rw [rd16, rd16, byteAt_append_left t (by omega), byteAt_append_left t h]

/-- `rd16` undoes `le16`. -/
@[simp] theorem rd16_le16 (v : U16) (s : Bytes) : rd16 (le16 v ++ s) 0 = v := by
  ext i hi
  simp only [rd16, le16, List.cons_append, List.nil_append, byteAt_zero, byteAt_succ, BitVec.getElem_or,
    BitVec.getElem_setWidth, BitVec.getElem_shiftLeft, BitVec.getLsbD_extractLsb']
  by_cases h : i < 8
  · simp [h, BitVec.getLsbD_eq_getElem hi]
  · have : 8 + (i - 8) = i := by omega
    simp [h, this, show i - 8 < 8 by omega, BitVec.getLsbD_eq_getElem hi]

/-- `le16` undoes `rd16`. -/
theorem le16_rd16 (a b : Byte) (s : Bytes) : le16 (rd16 (a :: b :: s) 0) = [a, b] := by
  simp only [le16, rd16, byteAt_zero, byteAt_succ]
  congr 1
  · ext i hi
    simp [BitVec.getElem_extractLsb', hi, show i < 16 by omega]
  · congr 1
    ext i hi
    simp [BitVec.getElem_extractLsb', hi, show 8 + i < 16 by omega]

/-- `rd32` undoes `le32`. -/
@[simp] theorem rd32_le32 (v : U32) (s : Bytes) : rd32 (le32 v ++ s) 0 = v := by
  ext i hi
  simp only [rd32, le32, List.cons_append, List.nil_append, byteAt_zero, byteAt_succ, BitVec.getElem_or,
    BitVec.getElem_setWidth, BitVec.getElem_shiftLeft, BitVec.getLsbD_extractLsb']
  rcases (by omega : i < 8 ∨ (8 ≤ i ∧ i < 16) ∨ (16 ≤ i ∧ i < 24) ∨ (24 ≤ i ∧ i < 32)) with h | h | h | h
  · simp [h, show i < 16 by omega, show i < 24 by omega, BitVec.getLsbD_eq_getElem hi]
  · simp [show ¬ i < 8 by omega, show i < 16 by omega, show i < 24 by omega, show 8 + (i - 8) = i by omega,
      show i - 8 < 8 by omega, BitVec.getLsbD_eq_getElem hi]
  · simp [show ¬ i < 8 by omega, show ¬ i < 16 by omega, show i < 24 by omega, show 16 + (i - 16) = i by omega,
      show i - 16 < 8 by omega, show ¬ i - 8 < 8 by omega, BitVec.getLsbD_eq_getElem hi]
  · simp [show ¬ i < 8 by omega, show ¬ i < 16 by omega, show ¬ i < 24 by omega, show 24 + (i - 24) = i by omega,
      show i - 24 < 8 by omega, show ¬ i - 8 < 8 by omega, show ¬ i - 16 < 8 by omega,
      BitVec.getLsbD_eq_getElem hi]

/-- `le32` undoes `rd32`. -/
theorem le32_rd32 (a b c d : Byte) (s : Bytes) : le32 (rd32 (a :: b :: c :: d :: s) 0) = [a, b, c, d] := by
  simp only [le32, rd32, byteAt_zero, byteAt_succ]
  congr 1
  · ext i hi
    simp [BitVec.getElem_extractLsb', hi, show i < 32 by omega, show i < 16 by omega, show i < 24 by omega]
  · congr 1
    · ext i hi
      simp [BitVec.getElem_extractLsb', hi, show 8 + i < 32 by omega, show 8 + i < 16 by omega, show 8 + i < 24 by omega]
    · congr 1
      · ext i hi
        simp [BitVec.getElem_extractLsb', hi, show 16 + i < 32 by omega, show ¬ 16 + i < 16 by omega,
          show 16 + i < 24 by omega, show 16 + i - 8 = 8 + i by omega,
          BitVec.getLsbD_of_ge a (16 + i) (by omega)]
      · congr 1
        ext i hi
        simp [BitVec.getElem_extractLsb', hi, show 24 + i < 32 by omega, show ¬ 24 + i < 16 by omega,
          show ¬ 24 + i < 24 by omega, show 24 + i - 8 = 16 + i by omega, show 24 + i - 16 = 8 + i by omega,
          BitVec.getLsbD_of_ge a (24 + i) (by omega), BitVec.getLsbD_of_ge b (16 + i) (by omega)]

end Sys2Proof
end

