-- ==== Sys2Proof/Laws/Codec.lean ====
section
/-! SUPPORT. The payload codec by groups: what each loop does with one whole group and with a short last group (R100,
R101, R108), and that one group's stuffing is undone by its restoring. -/

namespace Sys2Proof.Machine

/-- Induction over a byte sequence by groups of `n + 1`: a short last group (which may be empty), or a whole group in
front. -/
theorem bytes_by_groups (n : Nat) {P : Bytes → Prop} (short : ∀ s, s.length < n + 1 → P s)
    (whole : ∀ g s, g.length = n + 1 → P s → P (g ++ s)) (s : Bytes) : P s := by
  induction h : s.length using Nat.strong_induction_on generalizing s with
  | _ m ih =>
    by_cases hs : s.length < n + 1
    · exact short s hs
    · rw [← List.take_append_drop (n + 1) s]
      exact whole _ _ (by simp; omega) (ih (s.drop (n + 1)).length (by simp; omega) _ rfl)

/-! ### Encode -/

/-- The escape byte of the bytes of a group from position `gi` on. -/
def escapeLoop (gi : Nat) (esc : Byte) : Bytes → Byte
  | [] => esc
  | b :: bs => escapeLoop (gi + 1) (escapeWith esc b gi) bs

/-- A group that is filled up: its data bytes, its escape byte, and the next group begins. -/
theorem encodeLoop_whole (g : Bytes) (gi : Nat) (esc : Byte) (s : Bytes) (hg : g ≠ []) (h : gi + g.length = 7) :
    encodeLoop gi esc (g ++ s) = g.map stuffByte ++ escapeLoop gi esc g :: encodeLoop 0 0x80 s := by
  induction g generalizing gi esc with
  | nil => exact absurd rfl hg
  | cons b bs ih =>
    simp only [List.length_cons] at h
    rw [List.cons_append, encodeLoop]
    split
    · have : bs = [] := List.eq_nil_of_length_eq_zero (by omega)
      subst this; rfl
    · have : bs ≠ [] := fun e => by subst e; simp at h; omega
      rw [ih (gi + 1) _ this (by omega)]; rfl

/-- A group that the input ends in. -/
theorem encodeLoop_short (g : Bytes) (gi : Nat) (esc : Byte) (h : gi + g.length < 7) (h0 : gi ≠ 0 ∨ g ≠ []) :
    encodeLoop gi esc g = g.map stuffByte ++ [escapeLoop gi esc g] := by
  induction g generalizing gi esc with
  | nil => simp [encodeLoop, escapeLoop]; simpa using h0
  | cons b bs ih =>
    simp only [List.length_cons] at h
    rw [encodeLoop, if_neg (by omega), ih (gi + 1) _ (by omega) (.inl (by omega))]; rfl

@[simp] theorem payloadEncode_nil : payloadEncode [] = [] := rfl

theorem payloadEncode_whole {g : Bytes} (h : g.length = 7) (s : Bytes) :
    payloadEncode (g ++ s) = g.map stuffByte ++ escapeLoop 0 0x80 g :: payloadEncode s :=
  encodeLoop_whole g 0 0x80 s (fun e => by subst e; simp at h) (by omega)

theorem payloadEncode_short {g : Bytes} (h : g.length < 7) (h0 : g ≠ []) :
    payloadEncode g = g.map stuffByte ++ [escapeLoop 0 0x80 g] :=
  encodeLoop_short g 0 0x80 (by omega) (.inr h0)

/-! ### Decode -/

theorem decodeLoop_whole (g grp : Bytes) (esc : Byte) (s : Bytes) (h : grp.length + g.length = 7) :
    decodeLoop grp (g ++ esc :: s) = restoreGroup esc 0 (grp ++ g) ++ decodeLoop [] s := by
  induction g generalizing grp with
  | nil =>
    simp only [List.length_nil, Nat.add_zero] at h
    simp [decodeLoop, h]
  | cons e es ih =>
    simp only [List.length_cons] at h
    rw [List.cons_append, decodeLoop, if_neg (by omega), ih _ (by simp; omega)]
    simp

theorem decodeLoop_short (g grp : Bytes) (esc : Byte) (h : grp.length + g.length < 7) :
    decodeLoop grp (g ++ [esc]) = restoreGroup esc 0 (grp ++ g) := by
  induction g generalizing grp with
  | nil =>
    simp only [List.length_nil, Nat.add_zero] at h
    rw [List.nil_append, decodeLoop, if_neg (by omega), decodeLoop]
    simp
  | cons e es ih =>
    simp only [List.length_cons] at h
    rw [List.cons_append, decodeLoop, if_neg (by omega), ih _ (by simp; omega)]
    simp

@[simp] theorem payloadDecode_nil : payloadDecode [] = [] := rfl

theorem payloadDecode_whole {g : Bytes} (h : g.length = 7) (esc : Byte) (s : Bytes) :
    payloadDecode (g ++ esc :: s) = restoreGroup esc 0 g ++ payloadDecode s :=
  decodeLoop_whole g [] esc s (by simpa using h)

theorem payloadDecode_short {g : Bytes} (h : g.length < 7) (esc : Byte) :
    payloadDecode (g ++ [esc]) = restoreGroup esc 0 g :=
  decodeLoop_short g [] esc (by simpa using h)

@[simp] theorem restoreGroup_length (esc : Byte) (gi : Nat) (g : Bytes) : (restoreGroup esc gi g).length = g.length := by
  induction g generalizing gi with
  | nil => rfl
  | cons e es ih => simp [restoreGroup, ih]

/-! ### One group there and back -/

/-- Later bytes of the group leave the escape bits of earlier ones alone. -/
theorem escapeLoop_getLsbD_lt (g : Bytes) (gi : Nat) (esc : Byte) (i : Nat) (h : i < gi) :
    (escapeLoop gi esc g).getLsbD i = esc.getLsbD i := by
  induction g generalizing gi esc with
  | nil => rfl
  | cons b bs ih =>
    rw [escapeLoop, ih (gi + 1) _ (by omega), escapeWith]
    simp [h]

/-- Restoring a stuffed byte from an escape byte that holds its high bit gives the byte. -/
theorem restore_stuffByte (b esc : Byte) (gi : Nat) (h : esc.getLsbD gi = b.getLsbD 7) :
    (stuffByte b &&& 0x7F) ||| (bit8 (esc.getLsbD gi) <<< 7) = b := by
  rw [h, stuffByte, bit8]
  clear h
  revert b
  decide

/-- A group's bytes are restored from its stuffed bytes and its escape byte. -/
theorem restoreGroup_escapeLoop (g : Bytes) (gi : Nat) (esc : Byte) (h : gi + g.length ≤ 7)
    (he : ∀ i, gi ≤ i → i < 7 → esc.getLsbD i = false) :
    restoreGroup (escapeLoop gi esc g) gi (g.map stuffByte) = g := by
  induction g generalizing gi esc with
  | nil => rfl
  | cons b bs ih =>
    simp only [List.length_cons] at h
    have hw : ∀ i, (escapeWith esc b gi).getLsbD i = (esc.getLsbD i || (decide (i < 8) && (!decide (i < gi) &&
        (decide (i - gi < 8) && (decide (i - gi < 1) && (b.getLsbD 7)))))) := by
      intro i
      simp [escapeWith, bit8]
      grind
    rw [List.map_cons, restoreGroup, escapeLoop]
    congr 1
    · refine restore_stuffByte b _ gi ?_
      rw [escapeLoop_getLsbD_lt _ _ _ _ (by omega), hw, he gi (by omega) (by omega)]
      simp; omega
    · refine ih (gi + 1) _ (by omega) fun i h1 h2 => ?_
      rw [hw, he i (by omega) h2]
      simp; omega

/-- Bit 7 of an escape byte is the sentinel, always set. -/
theorem escapeLoop_sentinel (g : Bytes) (gi : Nat) (esc : Byte) (h : esc.getLsbD 7 = true) :
    (escapeLoop gi esc g).getLsbD 7 = true := by
  induction g generalizing gi esc with
  | nil => exact h
  | cons b bs ih => exact ih (gi + 1) _ (by simp [escapeWith, h])

/-! ### The checksum -/

theorem checksumLoop_whole (g : Bytes) (acc : U32) (gi : Nat) (s : Bytes) (hg : g ≠ []) (h : gi + g.length = 7) :
    checksumLoop acc gi (g ++ s) =
      checksumLoop (ckGroup ((g.zipIdx gi).foldl (fun a x => ckByte a x.1 x.2) acc) 7) 0 s := by
  induction g generalizing acc gi with
  | nil => exact absurd rfl hg
  | cons b bs ih =>
    simp only [List.length_cons] at h
    rw [List.cons_append, checksumLoop]
    split
    · have : bs = [] := List.eq_nil_of_length_eq_zero (by omega)
      subst this; rfl
    · have : bs ≠ [] := fun e => by subst e; simp at h; omega
      rw [ih _ (gi + 1) this (by omega)]; rfl

theorem checksumLoop_short (g : Bytes) (acc : U32) (gi : Nat) (h : gi + g.length < 7) (h0 : gi ≠ 0 ∨ g ≠ []) :
    checksumLoop acc gi g = ckGroup ((g.zipIdx gi).foldl (fun a x => ckByte a x.1 x.2) acc) (gi + g.length) := by
  induction g generalizing acc gi with
  | nil =>
    have : gi ≠ 0 := by simpa using h0
    simp [checksumLoop, this]
  | cons b bs ih =>
    simp only [List.length_cons] at h
    rw [checksumLoop, if_neg (by omega), ih _ (gi + 1) (by omega) (.inl (by omega))]
    rw [List.zipIdx_cons, List.foldl_cons, List.length_cons]
    congr 1; omega

end Sys2Proof.Machine
end

