-- ==== Sys2Proof/Laws/Memory.lean ====
section
/-! SUPPORT. `MEM`: read after write, and that every write keeps the canonical form (R40, R41, R57). -/

namespace Sys2Proof.Machine

@[simp] theorem Memory.read_nil (a : Nat) : Memory.read [] a = Memory.unlisted := rfl

@[simp] theorem Memory.read_cons (b : Nat) (w : Byte) (m : Memory) (a : Nat) :
    Memory.read ((b, w) :: m) a = if a = b then w else Memory.read m a := rfl

/-- An address below every listed one reads as unlisted. -/
theorem Memory.read_of_lt {m : Memory} {a : Nat} (h : ∀ c ∈ m, a < c.1) : Memory.read m a = Memory.unlisted := by
  induction m with
  | nil => rfl
  | cons c m ih =>
    obtain ⟨b, w⟩ := c
    have hb : a ≠ b := Nat.ne_of_lt (h (b, w) (by simp))
    simp only [Memory.read_cons, hb, if_false]
    exact ih fun c hc => h c (List.mem_cons_of_mem _ hc)

theorem Memory.read_put {m : Memory} {a : Nat} (h : ∀ c ∈ m, a < c.1) (v : Byte) (x : Nat) :
    Memory.read (Memory.put a v m) x = if x = a then v else Memory.read m x := by
  unfold Memory.put
  split
  · next hv =>
    split
    · next hx => rw [hx, hv, Memory.read_of_lt h]
    · rfl
  · rfl

/-- Read after write: the written byte at the written address, the old byte elsewhere. -/
theorem Memory.read_write {m : Memory} (hm : m.Pairwise fun x y => x.1 < y.1) (a : Nat) (v : Byte) (x : Nat) :
    Memory.read (Memory.write m a v) x = if x = a then v else Memory.read m x := by
  induction m with
  | nil => exact Memory.read_put (by simp) v x
  | cons c m ih =>
    obtain ⟨b, w⟩ := c
    have hb := (List.pairwise_cons.mp hm).1
    unfold Memory.write
    split
    · next h =>
      refine Memory.read_put (fun c hc => ?_) v x
      rcases List.mem_cons.mp hc with rfl | hc
      · exact h
      · exact Nat.lt_trans h (hb c hc)
    · split
      · next h =>
        subst h
        rw [Memory.read_put hb]
        split
        · rfl
        · next hx => simp [hx]
      · next h =>
        rw [Memory.read_cons, Memory.read_cons, ih (List.pairwise_cons.mp hm).2]
        by_cases hx : x = b
        · have hba : b ≠ a := fun e => h e.symm
          simp [hx, hba]
        · simp [hx]

theorem Memory.mem_put {m : Memory} {a : Nat} {v : Byte} {c : Host.Cell} (h : c ∈ Memory.put a v m) :
    c ∈ m ∨ c = (a, v) ∧ v ≠ Memory.unlisted := by
  unfold Memory.put at h
  split at h
  · exact .inl h
  · next hv =>
    rcases List.mem_cons.mp h with h | h
    · exact .inr ⟨h, hv⟩
    · exact .inl h

/-- A write lists no cell but the old ones and the written one. -/
theorem Memory.mem_write {m : Memory} {a : Nat} {v : Byte} {c : Host.Cell} (h : c ∈ Memory.write m a v) :
    c ∈ m ∨ c = (a, v) ∧ v ≠ Memory.unlisted := by
  induction m with
  | nil => exact Memory.mem_put h
  | cons x m ih =>
    obtain ⟨b, w⟩ := x
    unfold Memory.write at h
    split at h
    · exact Memory.mem_put h
    · split at h
      · rcases Memory.mem_put h with h | h
        · exact .inl (List.mem_cons_of_mem _ h)
        · exact .inr h
      · rcases List.mem_cons.mp h with rfl | h
        · exact .inl (by simp)
        · rcases ih h with h | h
          · exact .inl (List.mem_cons_of_mem _ h)
          · exact .inr h

theorem Memory.pairwise_put {m : Memory} (hm : m.Pairwise fun x y => x.1 < y.1) {a : Nat} (h : ∀ c ∈ m, a < c.1)
    (v : Byte) : (Memory.put a v m).Pairwise fun x y => x.1 < y.1 := by
  unfold Memory.put
  split
  · exact hm
  · exact List.pairwise_cons.mpr ⟨h, hm⟩

theorem Memory.pairwise_write {m : Memory} (hm : m.Pairwise fun x y => x.1 < y.1) (a : Nat) (v : Byte) :
    (Memory.write m a v).Pairwise fun x y => x.1 < y.1 := by
  induction m with
  | nil => exact Memory.pairwise_put hm (by simp) v
  | cons x m ih =>
    obtain ⟨b, w⟩ := x
    have hp := List.pairwise_cons.mp hm
    unfold Memory.write
    split
    · next h =>
      refine Memory.pairwise_put hm (fun c hc => ?_) v
      rcases List.mem_cons.mp hc with rfl | hc
      · exact h
      · exact Nat.lt_trans h (hp.1 c hc)
    · split
      · next h => subst h; exact Memory.pairwise_put hp.2 hp.1 v
      · next h1 h2 =>
        refine List.pairwise_cons.mpr ⟨fun c hc => ?_, ih hp.2⟩
        rcases Memory.mem_write hc with hc | ⟨rfl, -⟩
        · exact hp.1 c hc
        · show b < a
          omega

/-- Every write keeps the canonical form. -/
theorem Memory.write_keeps_wf {m : Memory} (hm : Memory.wf m) (a : Nat) (v : Byte) : Memory.wf (Memory.write m a v) := by
  refine ⟨Memory.pairwise_write hm.1 a v, fun c hc => ?_⟩
  rcases Memory.mem_write hc with hc | ⟨rfl, hv⟩
  · exact hm.2 c hc
  · exact hv

theorem Memory.wf_nil : Memory.wf [] := ⟨List.Pairwise.nil, by simp⟩

/-- The memory of a created instance, and so of `State.reset`, is canonical. -/
theorem State.create_mem_wf (c : Config.Setup) : Memory.wf (State.create c).mem := Memory.wf_nil

theorem State.reset_mem_wf : Memory.wf State.reset.mem := Memory.wf_nil

/-- Equal memories are equal data: two canonical memories that read alike everywhere are the same list. -/
theorem Memory.ext_read {m n : Memory} (hm : Memory.wf m) (hn : Memory.wf n)
    (h : ∀ a, Memory.read m a = Memory.read n a) : m = n := by
  induction m generalizing n with
  | nil =>
    cases n with
    | nil => rfl
    | cons c n =>
      obtain ⟨b, w⟩ := c
      have := h b
      simp only [Memory.read_nil, Memory.read_cons, if_true] at this
      exact absurd this.symm (hn.2 (b, w) (by simp))
  | cons c m ih =>
    obtain ⟨b, w⟩ := c
    have hmp := List.pairwise_cons.mp hm.1
    have hw : w ≠ Memory.unlisted := hm.2 (b, w) (by simp)
    cases n with
    | nil =>
      have := h b
      simp only [Memory.read_nil, Memory.read_cons, if_true] at this
      exact absurd this hw
    | cons d n =>
      obtain ⟨b', w'⟩ := d
      have hnp := List.pairwise_cons.mp hn.1
      have hw' : w' ≠ Memory.unlisted := hn.2 (b', w') (by simp)
      have hbb : b = b' := by
        rcases Nat.lt_trichotomy b b' with hlt | rfl | hgt
        · have h1 := h b
          rw [Memory.read_cons, if_pos rfl, Memory.read_of_lt] at h1
          · exact absurd h1 hw
          · intro c hc
            rcases List.mem_cons.mp hc with rfl | hc
            · exact hlt
            · exact Nat.lt_trans hlt (hnp.1 c hc)
        · rfl
        · have h1 := (h b').symm
          rw [Memory.read_cons, if_pos rfl, Memory.read_of_lt] at h1
          · exact absurd h1 hw'
          · intro c hc
            rcases List.mem_cons.mp hc with rfl | hc
            · exact hgt
            · exact Nat.lt_trans hgt (hmp.1 c hc)
      subst hbb
      have hww : w = w' := by simpa using h b
      subst hww
      congr 1
      refine ih ⟨hmp.2, fun c hc => hm.2 c (List.mem_cons_of_mem _ hc)⟩
        ⟨hnp.2, fun c hc => hn.2 c (List.mem_cons_of_mem _ hc)⟩ fun a => ?_
      by_cases ha : a = b
      · subst ha
        rw [Memory.read_of_lt hmp.1, Memory.read_of_lt hnp.1]
      · simpa [ha] using h a

end Sys2Proof.Machine
end

