-- ==== Sys2Proof/Laws/Ring.lean ====
section
/-! SUPPORT. Masked addressing, the valid bytes as a FIFO sequence, and what each shared ring operation does (R25, R41,
R160 to R172). -/

namespace Sys2Proof.Machine

/-! ### Masked addressing -/

theorem State.cap_pos (s : State) : 0 < s.cap := Nat.two_pow_pos _

/-- `i & MASK` is `i` modulo `C` (R41). -/
theorem State.wrap_eq_mod (s : State) (i : Nat) : s.wrap i = i % s.cap := Nat.and_two_pow_sub_one_eq_mod i s.cfg.k

theorem State.wrap_lt (s : State) (i : Nat) : s.wrap i < s.cap := by
  rw [s.wrap_eq_mod]; exact Nat.mod_lt _ s.cap_pos

theorem State.wrap_of_lt {s : State} {i : Nat} (h : i < s.cap) : s.wrap i = i := by
  rw [s.wrap_eq_mod, Nat.mod_eq_of_lt h]

@[simp] theorem State.wrap_wrap_add (s : State) (i j : Nat) : s.wrap (s.wrap i + j) = s.wrap (i + j) := by
  simp only [s.wrap_eq_mod, Nat.mod_add_mod]

@[simp] theorem State.wrap_wrap (s : State) (i : Nat) : s.wrap (s.wrap i) = s.wrap i := by
  simpa using s.wrap_wrap_add i 0

/-- Positions less than `C` apart have different indices. -/
theorem State.wrap_add_inj {s : State} {i j k : Nat} (hj : j < s.cap) (hk : k < s.cap)
    (h : s.wrap (i + j) = s.wrap (i + k)) : j = k := by
  rw [s.wrap_eq_mod, s.wrap_eq_mod] at h
  have := (Nat.ModEq.add_left_cancel' i (show i + j ≡ i + k [MOD s.cap] from h))
  rwa [Nat.ModEq, Nat.mod_eq_of_lt hj, Nat.mod_eq_of_lt hk] at this

/-! ### Reading a range -/

@[simp] theorem State.readRange_length (s : State) (start n : Nat) : (s.readRange start n).length = n := by
  simp [State.readRange]

theorem State.readRange_getElem (s : State) (start n i : Nat) (h : i < (s.readRange start n).length) :
    (s.readRange start n)[i] = s.memRead (s.tail + start + i) := by simp [State.readRange]

theorem State.byteAt_readRange (s : State) {start n i : Nat} (h : i < n) :
    byteAt (s.readRange start n) i = s.memRead (s.tail + start + i) := by
  have hl : i < (s.readRange start n).length := by simpa using h
  rw [byteAt, List.getD_eq_getElem?_getD, List.getElem?_eq_getElem hl, Option.getD_some, s.readRange_getElem]

@[simp] theorem State.validBytes_length (s : State) : s.validBytes.length = s.count := s.readRange_length 0 s.count

/-- The range of `n` bytes after `start` is that slice of the valid bytes, where it lies inside them. -/
theorem State.readRange_eq_slice {s : State} {start n : Nat} (h : start + n ≤ s.count) :
    s.readRange start n = (s.validBytes.drop start).take n := by
  apply List.ext_getElem
  · simp; omega
  · intro i h1 h2
    simp [State.validBytes, State.readRange, Nat.add_assoc]

theorem State.validBytes_getElem (s : State) (i : Nat) (h : i < s.validBytes.length) :
    s.validBytes[i] = s.memRead (s.tail + i) := by simp [State.validBytes, State.readRange]

/-! ### `TAIL` moves: discarding the oldest bytes -/

theorem State.consume_readRange (s : State) (n start len : Nat) :
    (s.consume n).readRange start len = s.readRange (n + start) len := by
  apply List.ext_getElem
  · simp
  · intro i h1 h2
    rw [State.readRange_getElem, State.readRange_getElem]
    simp only [State.memRead, State.consume_mem, State.consume_wrap, State.consume_tail]
    rw [Nat.add_assoc, s.wrap_wrap_add]
    congr 2; omega

/-- Consuming drops that many of the oldest valid bytes. -/
theorem State.consume_validBytes (s : State) (n : Nat) : (s.consume n).validBytes = s.validBytes.drop n := by
  rw [State.validBytes, State.consume_readRange, State.consume_count]
  apply List.ext_getElem
  · simp
  · intro i h1 h2
    simp [State.validBytes, State.readRange, Nat.add_assoc]

theorem State.discardAll_validBytes (s : State) : s.discardAll.validBytes = [] := rfl

theorem State.respond_validBytes (s : State) (st : Status) (r : Results) :
    (s.respond st r).validBytes = s.validBytes := rfl

/-- Consuming valid bytes keeps the cursor invariant (R25). -/
theorem State.consume_keeps_cursorsOk {s : State} (h : s.cursorsOk) {n : Nat} (hn : n ≤ s.count) :
    (s.consume n).cursorsOk := by
  obtain ⟨h1, h2, h3, h4⟩ := h
  refine ⟨h1, s.wrap_lt _, ?_, ?_⟩
  · simp only [State.consume_count, State.consume_cap]; omega
  · simp only [State.consume_head, State.consume_tail, State.consume_count, State.consume_wrap, s.wrap_wrap_add]
    rw [h4]; congr 1; omega

theorem State.discardAll_keeps_cursorsOk {s : State} (h : s.cursorsOk) : s.discardAll.cursorsOk := by
  refine ⟨h.1, h.1, Nat.zero_le _, ?_⟩
  simp only [State.discardAll_head, State.discardAll_tail, State.discardAll_count, State.discardAll_wrap, Nat.add_zero]
  exact (State.wrap_of_lt h.1).symm

/-! ### Searching -/

/-- What a scan finds: the first position of `v` in its range, or that there is none. -/
theorem State.scan_spec (s : State) (v : Byte) (fuel i : Nat) :
    match s.scan v fuel i with
    | some p => i ≤ p ∧ p < i + fuel ∧ s.memRead (s.tail + p) = v ∧ ∀ j, i ≤ j → j < p → s.memRead (s.tail + j) ≠ v
    | none => ∀ j, i ≤ j → j < i + fuel → s.memRead (s.tail + j) ≠ v := by
  induction fuel generalizing i with
  | zero => intro j h1 h2; omega
  | succ fuel ih =>
    unfold State.scan
    split
    · next p hp =>
      split at hp
      · next h =>
        cases hp
        exact ⟨Nat.le_refl _, by omega, h, fun j h1 h2 => by omega⟩
      · next h =>
        have := ih (i + 1)
        rw [hp] at this
        refine ⟨by omega, by omega, this.2.2.1, fun j h1 h2 => ?_⟩
        rcases Nat.eq_or_lt_of_le h1 with rfl | h1
        · exact h
        · exact this.2.2.2 j h1 h2
    · next hp =>
      split at hp
      · cases hp
      · next h =>
        have := ih (i + 1)
        rw [hp] at this
        intro j h1 h2
        rcases Nat.eq_or_lt_of_le h1 with rfl | h1
        · exact h
        · exact this j h1 (by omega)

/-- What `findFrom` finds among the valid bytes (R170). -/
theorem State.findFrom_some {s : State} {offset p : Nat} {v : Byte} (h : s.findFrom offset v = some p) :
    offset ≤ p ∧ p < s.count ∧ s.memRead (s.tail + p) = v ∧
      ∀ j, offset ≤ j → j < p → s.memRead (s.tail + j) ≠ v := by
  have := s.scan_spec v (s.count - offset) offset
  rw [State.findFrom] at h
  rw [h] at this
  exact ⟨this.1, by omega, this.2.2⟩

theorem State.findFrom_none {s : State} {offset : Nat} {v : Byte} (h : s.findFrom offset v = none) :
    ∀ j, offset ≤ j → j < s.count → s.memRead (s.tail + j) ≠ v := by
  have := s.scan_spec v (s.count - offset) offset
  rw [State.findFrom] at h
  rw [h] at this
  exact fun j h1 h2 => this j h1 (by omega)

/-- Everything `SkipUntil` can do (R170): it discards through the first match, or everything. -/
theorem State.skipUntil_cases (s : State) (offset : Nat) (v : Byte) :
    (∃ p, s.findFrom offset v = some p ∧ offset ≤ p ∧ p < s.count ∧ s.skipUntil offset v = s.consume (p + 1)) ∨
    (s.findFrom offset v = none ∧ s.skipUntil offset v = s.discardAll) := by
  rcases h : s.findFrom offset v with _ | p
  · exact .inr ⟨rfl, by rw [State.skipUntil, h]⟩
  · have := State.findFrom_some h
    exact .inl ⟨p, rfl, this.1, this.2.1, by rw [State.skipUntil, h]⟩

/-! ### Writing -/

/-- Storing a sequence changes the memory alone. -/
theorem State.storeFrom_frame (s : State) (i : Nat) (src : Bytes) : { s with mem := (s.storeFrom i src).mem } = s.storeFrom i src := by
  induction src generalizing s i with
  | nil => rfl
  | cons b bs ih => exact (ih (s.memWrite i b) (i + 1))

@[simp] theorem State.storeFrom_cfg (s : State) (i : Nat) (src : Bytes) : (s.storeFrom i src).cfg = s.cfg := by
  rw [← s.storeFrom_frame i src]

@[simp] theorem State.storeFrom_head (s : State) (i : Nat) (src : Bytes) : (s.storeFrom i src).head = s.head := by
  rw [← s.storeFrom_frame i src]

@[simp] theorem State.storeFrom_tail (s : State) (i : Nat) (src : Bytes) : (s.storeFrom i src).tail = s.tail := by
  rw [← s.storeFrom_frame i src]

@[simp] theorem State.storeFrom_count (s : State) (i : Nat) (src : Bytes) : (s.storeFrom i src).count = s.count := by
  rw [← s.storeFrom_frame i src]

@[simp] theorem State.storeFrom_busy (s : State) (i : Nat) (src : Bytes) : (s.storeFrom i src).busy = s.busy := by
  rw [← s.storeFrom_frame i src]

@[simp] theorem State.storeFrom_disposed (s : State) (i : Nat) (src : Bytes) : (s.storeFrom i src).disposed = s.disposed := by
  rw [← s.storeFrom_frame i src]

@[simp] theorem State.storeFrom_pending (s : State) (i : Nat) (src : Bytes) : (s.storeFrom i src).pending = s.pending := by
  rw [← s.storeFrom_frame i src]

@[simp] theorem State.storeFrom_schedule (s : State) (i : Nat) (src : Bytes) : (s.storeFrom i src).schedule = s.schedule := by
  rw [← s.storeFrom_frame i src]

@[simp] theorem State.storeFrom_served (s : State) (i : Nat) (src : Bytes) : (s.storeFrom i src).served = s.served := by
  rw [← s.storeFrom_frame i src]

@[simp] theorem State.storeFrom_issuer (s : State) (i : Nat) (src : Bytes) : (s.storeFrom i src).issuer = s.issuer := by
  rw [← s.storeFrom_frame i src]

@[simp] theorem State.storeFrom_delivered (s : State) (i : Nat) (src : Bytes) : (s.storeFrom i src).delivered = s.delivered := by
  rw [← s.storeFrom_frame i src]

@[simp] theorem State.storeFrom_wrap (s : State) (i : Nat) (src : Bytes) (j : Nat) :
    (s.storeFrom i src).wrap j = s.wrap j := State.wrap_congr (by simp) j

@[simp] theorem State.storeFrom_cap (s : State) (i : Nat) (src : Bytes) : (s.storeFrom i src).cap = s.cap :=
  State.cap_congr (by simp)

/-- Storing keeps `MEM` canonical and inside its `C` indices. -/
theorem State.storeFrom_keeps_memOk {s : State} (h : s.memOk) (i : Nat) (src : Bytes) : (s.storeFrom i src).memOk := by
  induction src generalizing s i with
  | nil => exact h
  | cons b bs ih =>
    refine ih (s := s.memWrite i b) ⟨Memory.write_keeps_wf h.1 _ _, fun c hc => ?_⟩ (i + 1)
    rcases Memory.mem_write hc with hc | ⟨rfl, -⟩
    · exact h.2 c hc
    · exact s.wrap_lt i

/-- Every address that is none of the stored ones reads as before. -/
theorem State.read_storeFrom_of_ne {s : State} (h : Memory.wf s.mem) (i : Nat) (src : Bytes) (a : Nat)
    (ha : ∀ j, j < src.length → a ≠ s.wrap (i + j)) : Memory.read (s.storeFrom i src).mem a = Memory.read s.mem a := by
  induction src generalizing s i with
  | nil => rfl
  | cons b bs ih =>
    have h0 : a ≠ s.wrap i := by simpa using ha 0 (by simp)
    have hw : Memory.wf (s.memWrite i b).mem := Memory.write_keeps_wf h _ _
    refine (ih (s := s.memWrite i b) hw (i + 1) fun j hj => ?_).trans ?_
    · have := ha (j + 1) (by simpa using hj)
      rwa [show i + (j + 1) = i + 1 + j by omega] at this
    · rw [State.memWrite_mem, Memory.read_write h.1, if_neg h0]

/-- The stored bytes read back, where no more than `C` are stored. -/
theorem State.read_storeFrom {s : State} (h : Memory.wf s.mem) (i : Nat) (src : Bytes) (hl : src.length ≤ s.cap)
    (j : Nat) (hj : j < src.length) : Memory.read (s.storeFrom i src).mem (s.wrap (i + j)) = src[j] := by
  induction src generalizing s i j with
  | nil => simp at hj
  | cons b bs ih =>
    have hw : Memory.wf (s.memWrite i b).mem := Memory.write_keeps_wf h _ _
    simp only [List.length_cons] at hl hj
    cases j with
    | zero =>
      refine (State.read_storeFrom_of_ne (s := s.memWrite i b) hw (i + 1) bs _ fun j hj => ?_).trans ?_
      · intro e
        have := State.wrap_add_inj (s := s) (i := i) (j := 0) (k := 1 + j) (by omega) (by omega)
          (by rw [e, State.memWrite_wrap]; congr 1; omega)
        omega
      · rw [State.memWrite_mem, Memory.read_write h.1, if_pos (by simp)]; rfl
    | succ j =>
      have := ih (s := s.memWrite i b) hw (i + 1) (by rw [State.memWrite_cap]; omega) j (by omega)
      rw [State.memWrite_wrap, show i + 1 + j = i + (j + 1) by omega] at this
      exact this

end Sys2Proof.Machine
end

