-- ==== Sys2Proof/Laws/Exec.lean ====
section
/-! SUPPORT. What a command can do to the state, said once for all 18: it moves the ring in one of four ways, and then
responds. Every whole-machine rule is a case analysis over `exec_cases`. -/

namespace Sys2Proof.Machine

/-- The commands that can discard valid bytes (R24, R46). -/
def consumes : Instr → Bool
  | .rbRead _ _ => true
  | .rbSkipUntil _ _ => true
  | .rbSkip _ => true
  | .frPoll => true
  | _ => false

/-- What a command can have done to the state before it responds. -/
inductive RingMove (i : Instr) (s : State) : State → Prop
  | stay : RingMove i s s
  | append (src : Bytes) (n : Nat) (hi : i = .rbWrite src) (hn : n = min src.length (s.cap - s.count)) :
      RingMove i s ((s.storeFrom s.head (src.take n)).produce n)
  | discard (n : Nat) (hi : consumes i = true) (hn : n ≤ s.count) : RingMove i s (s.consume n)
  | clear (hi : consumes i = true) : RingMove i s s.discardAll

theorem skipUntil_move {i : Instr} (hi : consumes i = true) (s : State) (offset : Nat) (v : Byte) :
    RingMove i s (s.skipUntil offset v) := by
  rcases s.skipUntil_cases offset v with ⟨p, -, -, hp, e⟩ | ⟨-, e⟩ <;> rw [e]
  · exact .discard (p + 1) hi hp
  · exact .clear hi

/-- Every command moves the ring in one of the four ways and then responds once. -/
theorem exec_cases (i : Instr) (s : State) : ∃ m st r, RingMove i s m ∧ exec i s = .next (m.respond st r) := by
  cases i with
  | rbWrite src => exact ⟨_, _, _, .append src _ rfl rfl, rfl⟩
  | rbRead len skip =>
    simp only [exec, execRbRead]
    split
    · exact ⟨_, _, _, .stay, rfl⟩
    · next h => exact ⟨_, _, _, .discard _ rfl (by simp only [State.deliverable] at h ⊢; omega), rfl⟩
  | rbPeek len skip =>
    simp only [exec, execRbPeek]
    split <;> exact ⟨_, _, _, .stay, rfl⟩
  | rbPeekByte offset =>
    simp only [exec, execRbPeekByte]
    split <;> exact ⟨_, _, _, .stay, rfl⟩
  | rbPeekHeader skip =>
    simp only [exec, execRbPeekHeader]
    split <;> exact ⟨_, _, _, .stay, rfl⟩
  | rbSkipUntil offset value => exact ⟨_, _, _, skipUntil_move rfl s offset.toNat value, rfl⟩
  | rbSkip n => exact ⟨_, _, _, .discard _ rfl (Nat.min_le_right _ _), rfl⟩
  | rbStat => exact ⟨_, _, _, .stay, rfl⟩
  | pcEncode src => exact ⟨_, _, _, .stay, rfl⟩
  | pcDecode src =>
    simp only [exec, execPcDecode]
    split <;> exact ⟨_, _, _, .stay, rfl⟩
  | hcWriteHeader d dl =>
    simp only [exec, execHcWriteHeader]
    split <;> exact ⟨_, _, _, .stay, rfl⟩
  | hcReadHeader stream src =>
    simp only [exec, execHcReadHeader]
    split <;> exact ⟨_, _, _, .stay, rfl⟩
  | hcReadOptional f src =>
    simp only [exec, execHcReadOptional]
    split <;> exact ⟨_, _, _, .stay, rfl⟩
  | frSerializeTcp d payload =>
    simp only [exec, execFrSerializeTcp, State.respondBuilt]
    split <;> exact ⟨_, _, _, .stay, rfl⟩
  | frSerializeUdp d payload =>
    simp only [exec, execFrSerializeUdp, State.respondBuilt]
    split <;> exact ⟨_, _, _, .stay, rfl⟩
  | frDeserializeTcp frame =>
    simp only [exec, execFrDeserializeTcp, State.respondRx]
    split <;> exact ⟨_, _, _, .stay, rfl⟩
  | frDeserializeUdp dgram =>
    simp only [exec, execFrDeserializeUdp, State.respondRx]
    split <;> exact ⟨_, _, _, .stay, rfl⟩
  | frPoll =>
    simp only [exec, execFrPoll]
    split
    · exact ⟨_, _, _, .stay, rfl⟩
    · split
      · exact ⟨_, _, _, skipUntil_move rfl s 0 0, rfl⟩
      · split
        · exact ⟨_, _, _, skipUntil_move rfl s 0 0, rfl⟩
        · split
          · exact ⟨_, _, _, .stay, rfl⟩
          · next hc =>
            split
            · exact ⟨_, _, _, skipUntil_move rfl s _ 0, rfl⟩
            · simp only [State.respondPolled]
              split <;> exact ⟨_, _, _, .discard _ rfl (by omega), rfl⟩

/-- A ring move leaves the configuration and the interface to the issuers alone. -/
theorem RingMove.frame {i : Instr} {s m : State} (h : RingMove i s m) :
    m.cfg = s.cfg ∧ m.busy = s.busy ∧ m.disposed = s.disposed ∧ m.pending = s.pending ∧ m.schedule = s.schedule ∧
      m.served = s.served ∧ m.issuer = s.issuer ∧ m.delivered = s.delivered := by
  cases h <;> simp

/-- A ring move keeps the cursor invariant and the memory's form. -/
theorem RingMove.keeps {i : Instr} {s m : State} (h : RingMove i s m) (hc : s.cursorsOk) (hm : s.memOk) :
    m.cursorsOk ∧ m.memOk := by
  cases h with
  | stay => exact ⟨hc, hm⟩
  | append src n hi hn =>
    refine ⟨⟨?_, ?_, ?_, ?_⟩, ?_⟩
    · simpa using s.wrap_lt _
    · simpa using hc.2.1
    · have := hc.2.2.1
      simp only [State.produce_count, State.storeFrom_count, State.produce_cap, State.storeFrom_cap]
      omega
    · simp only [State.produce_head, State.produce_tail, State.produce_count, State.produce_wrap, State.storeFrom_head,
        State.storeFrom_tail, State.storeFrom_count, State.storeFrom_wrap]
      rw [hc.2.2.2, s.wrap_wrap_add, Nat.add_assoc]
    · have := State.storeFrom_keeps_memOk hm s.head (src.take n)
      simpa [State.memOk] using this
  | discard n hi hn => exact ⟨State.consume_keeps_cursorsOk hc hn, hm⟩
  | clear hi => exact ⟨State.discardAll_keeps_cursorsOk hc, hm⟩

/-- Everything a served request can do: its command executes, its reserved opcode is answered, or its record is
refused. -/
theorem serve_next {record : Bytes} {s t : State} (h : serve record s = .next t) :
    (∃ i, decode record = .ok i ∧ exec i s = .next t) ∨
    (∃ b, decode record = .error (.reservedOpcode b) ∧ t = s.fail .illegalCommand) := by
  unfold serve at h
  split at h
  · next i hd => exact .inl ⟨i, hd, h⟩
  · next e hd =>
    cases e with
    | reservedOpcode b => exact .inr ⟨b, hd, by simpa [rejectRecord] using h.symm⟩
    | emptyRecord => simp [rejectRecord] at h
    | truncatedOperands => simp [rejectRecord] at h
    | operandOutOfRange => simp [rejectRecord] at h
    | trailingBytes => simp [rejectRecord] at h

/-- Taking the lock leaves the ring as it should be. -/
theorem State.accept_ringOk (s : State) (r : Request) : (s.accept r).ringOk ↔ s.ringOk := Iff.rfl

/-- Everything a step can do: nothing is presented and nothing changes, or one request is served. -/
theorem step_next {s t : State} (h : step s = .next t) :
    s.disposed = false ∧ s.busy = false ∧
      ((s.nextRequest = none ∧ t = s) ∨ ∃ r, s.nextRequest = some r ∧ serve r.record (s.accept r) = .next t) := by
  unfold step at h
  split at h
  · cases h
  · next hd =>
    split at h
    · cases h
    · next hb =>
      refine ⟨by simpa using hd, by simpa using hb, ?_⟩
      split at h
      · next hr => exact .inl ⟨hr, by simpa using h.symm⟩
      · next r hr => exact .inr ⟨r, hr, h⟩

/-- The arbiter's choice is a pending command, where there is one (R51). -/
theorem State.choice_lt {s : State} (h : s.pending ≠ []) : s.choice < s.pending.length := by
  unfold State.choice
  split
  · next hp => exact absurd hp h
  · next hp => simp [hp]
  · exact Nat.mod_lt _ (List.length_pos_iff.mpr h)

end Sys2Proof.Machine
end

