-- ==== Sys2Proof/Laws/PerInstr.lean ====
section
/-! SUPPORT. Laws made per instruction. `RecordShape`: a command's record leads with the opcode byte of its row (R76) and
is as long as its operands are (log 7). -/

namespace Sys2Proof.Laws.RecordShape

/-- The record leads with the opcode byte, and its length is that of the zero record and of the byte operand. -/
def Statement (i : Instr) : Prop :=
  (encode i).head? = some i.opcode.code ∧ (encode i).length = i.opcode.zeroRecordLength + i.bytesOperand.length

theorem rbWrite (src : Bytes) : Statement (.rbWrite src) := ⟨rfl, Nat.add_comm src.length 5⟩

theorem rbRead (len : U32) (skip : U32) : Statement (.rbRead len skip) := ⟨rfl, rfl⟩

theorem rbPeek (len : U32) (skip : U32) : Statement (.rbPeek len skip) := ⟨rfl, rfl⟩

theorem rbPeekByte (offset : U32) : Statement (.rbPeekByte offset) := ⟨rfl, rfl⟩

theorem rbPeekHeader (skip : U32) : Statement (.rbPeekHeader skip) := ⟨rfl, rfl⟩

theorem rbSkipUntil (offset : U32) (value : Byte) : Statement (.rbSkipUntil offset value) := ⟨rfl, rfl⟩

theorem rbSkip (n : U32) : Statement (.rbSkip n) := ⟨rfl, rfl⟩

theorem rbStat : Statement .rbStat := ⟨rfl, rfl⟩

theorem pcEncode (src : Bytes) : Statement (.pcEncode src) := ⟨rfl, Nat.add_comm src.length 5⟩

theorem pcDecode (src : Bytes) : Statement (.pcDecode src) := ⟨rfl, Nat.add_comm src.length 5⟩

theorem hcWriteHeader (d : TxDesc) (dataLength : U16) : Statement (.hcWriteHeader d dataLength) := ⟨rfl, rfl⟩

theorem hcReadHeader (stream : Bool) (src : Bytes) : Statement (.hcReadHeader stream src) := ⟨rfl, Nat.add_comm src.length 6⟩

theorem hcReadOptional (flags : Byte) (src : Bytes) : Statement (.hcReadOptional flags src) := ⟨rfl, Nat.add_comm src.length 6⟩

theorem frSerializeTcp (d : TxDesc) (payload : Bytes) : Statement (.frSerializeTcp d payload) := ⟨rfl, Nat.add_comm payload.length 31⟩

theorem frSerializeUdp (d : TxDesc) (payload : Bytes) : Statement (.frSerializeUdp d payload) := ⟨rfl, Nat.add_comm payload.length 31⟩

theorem frDeserializeTcp (frame : Bytes) : Statement (.frDeserializeTcp frame) := ⟨rfl, Nat.add_comm frame.length 5⟩

theorem frDeserializeUdp (dgram : Bytes) : Statement (.frDeserializeUdp dgram) := ⟨rfl, Nat.add_comm dgram.length 5⟩

theorem frPoll : Statement .frPoll := ⟨rfl, rfl⟩

end Sys2Proof.Laws.RecordShape
end

