-- ==== Sys2Proof/Machine/Asm.lean ====
section
/-! DEFINITION. The assembly syntax of `30_encoding.md` R81: a command and a response as text. It is a notation for
issuers; no meaning and no step uses it. -/

namespace Sys2Proof.Machine

def hexDigit (n : Nat) : Char := if n < 10 then Char.ofNat (48 + n) else Char.ofNat (55 + n)

/-- A byte as two hexadecimal digits. -/
def asmByte (b : Byte) : String := String.ofList [hexDigit (b.toNat / 16), hexDigit (b.toNat % 16)]

/-- A byte sequence in square brackets. -/
def asmBytes (s : Bytes) : String := "[" ++ String.intercalate " " (s.map asmByte) ++ "]"

/-- A 0x literal of `n` bytes' worth of digits. -/
def asmHex (s : Bytes) : String := "0x" ++ String.join (s.map asmByte)

def asmBool (b : Bool) : String := if b then "true" else "false"

/-- One named field of a descriptor, left out where it is 0 or false. -/
def asmField (name : String) (omitted : Bool) (value : String) : List String :=
  if omitted then [] else [name ++ "=" ++ value]

/-- A descriptor in braces, with the short field names of R81. -/
def asmTxDesc (d : TxDesc) : String :=
  let fields := asmField "id" (d.commandOrResponseId == 0) (toString d.commandOrResponseId.toNat)
    ++ asmField "rid" (d.requestId == 0) (toString d.requestId.toNat)
    ++ asmField "resp" (!d.isResponse) "1"
    ++ asmField "comp" (d.compressionMode == 0) (toString d.compressionMode.toNat)
    ++ asmField "enc" (d.encryptionMode == 0) (toString d.encryptionMode.toNat)
    ++ asmField "ch" (!d.isChunked) "1"
    ++ asmField "orig" (d.originalLength == 0) (toString d.originalLength.toInt)
    ++ asmField "pid" (d.packetId == 0) (toString d.packetId.toInt)
    ++ asmField "coff" (d.chunkOffset == 0) (toString d.chunkOffset.toInt)
    ++ asmField "tot" (d.totalCompressedLength == 0) (toString d.totalCompressedLength.toInt)
  String.singleton (Char.ofNat 123) ++ String.intercalate ", " fields ++ String.singleton (Char.ofNat 125)

/-- The mnemonic of an opcode (R76). -/
def asmMnemonic : Opcode → String
  | .rbWrite => "RB_WRITE"
  | .rbRead => "RB_READ"
  | .rbPeek => "RB_PEEK"
  | .rbPeekByte => "RB_PEEK_BYTE"
  | .rbPeekHeader => "RB_PEEK_HEADER"
  | .rbSkipUntil => "RB_SKIP_UNTIL"
  | .rbSkip => "RB_SKIP"
  | .rbStat => "RB_STAT"
  | .pcEncode => "PC_ENCODE"
  | .pcDecode => "PC_DECODE"
  | .hcWriteHeader => "HC_WRITE_HEADER"
  | .hcReadHeader => "HC_READ_HEADER"
  | .hcReadOptional => "HC_READ_OPTIONAL"
  | .frSerializeTcp => "FR_SERIALIZE_TCP"
  | .frSerializeUdp => "FR_SERIALIZE_UDP"
  | .frDeserializeTcp => "FR_DESERIALIZE_TCP"
  | .frDeserializeUdp => "FR_DESERIALIZE_UDP"
  | .frPoll => "FR_POLL"

/-- The operands of a command, as text. -/
def asmOperands : Instr → List String
  | .rbWrite src => [asmBytes src]
  | .rbRead len skip => [toString len.toNat, toString skip.toNat]
  | .rbPeek len skip => [toString len.toNat, toString skip.toNat]
  | .rbPeekByte offset => [toString offset.toNat]
  | .rbPeekHeader skip => [toString skip.toNat]
  | .rbSkipUntil offset value => [toString offset.toNat, asmHex [value]]
  | .rbSkip n => [toString n.toNat]
  | .rbStat => []
  | .pcEncode src => [asmBytes src]
  | .pcDecode src => [asmBytes src]
  | .hcWriteHeader d dataLength => [asmTxDesc d, toString dataLength.toNat]
  | .hcReadHeader stream src => [asmBool stream, asmBytes src]
  | .hcReadOptional flags src => [asmHex [flags], asmBytes src]
  | .frSerializeTcp d payload => [asmTxDesc d, asmBytes payload]
  | .frSerializeUdp d payload => [asmTxDesc d, asmBytes payload]
  | .frDeserializeTcp frame => [asmBytes frame]
  | .frDeserializeUdp dgram => [asmBytes dgram]
  | .frPoll => []

/-- A mnemonic and its operands, separated by commas. -/
def asmLine (head : String) (operands : List String) : String :=
  if operands.isEmpty then head else head ++ " " ++ String.intercalate ", " operands

/-- One command (R81). -/
def asmInstr (i : Instr) : String := asmLine (asmMnemonic i.opcode) (asmOperands i)

/-- The mnemonic of a status (R241). -/
def asmStatus : Status → String
  | .ok => "OK"
  | .needMore => "NEED_MORE"
  | .framingDesync => "FRAMING_DESYNC"
  | .checksumMismatch => "CHECKSUM_MISMATCH"
  | .decodeLength => "DECODE_LENGTH"
  | .malformedHeader => "MALFORMED_HEADER"
  | .malformedBody => "MALFORMED_BODY"
  | .chunkBounds => "CHUNK_BOUNDS"
  | .dgramLengthMismatch => "DGRAM_LENGTH_MISMATCH"
  | .frameTooLarge => "FRAME_TOO_LARGE"
  | .badOperand => "BAD_OPERAND"
  | .illegalCommand => "ILLEGAL_COMMAND"

/-- A receive result in braces, with the field names of R79. -/
def asmRxResult (r : RxResult) : String :=
  String.singleton (Char.ofNat 123) ++ String.intercalate ", "
    ["flags=" ++ asmHex [r.flags], "id=" ++ toString r.commandOrResponseId.toNat,
     "dataLength=" ++ toString r.dataLength.toNat, "checksum=" ++ asmHex (le16 r.checksum).reverse,
     "isChunked=" ++ asmBool r.isChunked, "isRequest=" ++ asmBool r.isRequest,
     "isResponse=" ++ asmBool r.isResponse, "compressionMode=" ++ toString r.compressionMode.toNat,
     "encryptionMode=" ++ toString r.encryptionMode.toNat, "requestId=" ++ toString r.requestId.toNat,
     "originalLength=" ++ toString r.originalLength.toInt, "packetId=" ++ toString r.packetId.toInt,
     "chunkOffset=" ++ toString r.chunkOffset.toInt,
     "totalCompressedLength=" ++ toString r.totalCompressedLength.toInt, "payload=" ++ asmBytes r.payload]
    ++ String.singleton (Char.ofNat 125)

/-- The results of a response, as named fields of R76; the bytes a builder returns are named as their command names
them. -/
def asmResults (op : Opcode) : Results → List String
  | .absent => []
  | .written n => ["written=" ++ toString n.toNat]
  | .read data n => ["data=" ++ asmBytes data, "n=" ++ toString n.toNat]
  | .peekByte valid byte => ["valid=" ++ asmBool valid, "byte=" ++ asmHex [byte]]
  | .header flags id dataLength checksum =>
    ["flags=" ++ asmHex [flags], "id=" ++ toString id.toNat, "dataLength=" ++ toString dataLength.toNat,
     "checksum=" ++ asmHex (le16 checksum).reverse]
  | .found b => ["found=" ++ asmBool b]
  | .stat head tail count cap =>
    ["head=" ++ toString head.toNat, "tail=" ++ toString tail.toNat, "count=" ++ toString count.toNat,
     "cap=" ++ toString cap.toNat]
  | .codec dst checksum => ["dst=" ++ asmBytes dst, "checksum=" ++ asmHex (le16 checksum).reverse]
  | .built bytes n =>
    [(if op = .hcWriteHeader then "hdr=" else "frame=") ++ asmBytes bytes, "n=" ++ toString n.toNat]
  | .optional o n =>
    ["requestId=" ++ toString o.requestId.toNat, "originalLength=" ++ toString o.originalLength.toInt,
     "packetId=" ++ toString o.packetId.toInt, "chunkOffset=" ++ toString o.chunkOffset.toInt,
     "totalCompressedLength=" ++ toString o.totalCompressedLength.toInt, "n=" ++ toString n.toNat]
  | .rx r => ["r=" ++ asmRxResult r]
  | .poll consumed r =>
    ["consumed=" ++ toString consumed.toNat] ++ (match r with
      | none => []
      | some x => ["r=" ++ asmRxResult x])

/-- A command and its response (R81). -/
def asmExchange (i : Instr) (r : Response) : String :=
  asmInstr i ++ " -> " ++ String.intercalate ", " (asmStatus r.status :: asmResults i.opcode r.results)

end Sys2Proof.Machine
end

