-- ==== Sys2Proof/Tests/Slice0.lean ====
section
/-! SUPPORT. Tests. The expected values of the one-step tests are the vectors of `95_test_vectors.md` (the id stands before
each); the records of the decode tests are written out by hand from R76 and log 7; the witnesses show that the
hypotheses of each obligation can be met. -/

namespace Sys2Proof.Tests

open Sys2Proof.Machine Sys2Proof.Spec

/-! ### Helpers -/

/-- A created instance of capacity `2 ^ k` with the reference checksum. -/
def inst (k : Nat) : State := State.create { k := k, checksum := .reference 0x12345678, payloadSize := 0 }

/-- An instance of capacity `2 ^ k` that holds `bs`, the first byte at index `tail`. -/
def ringAt (k tail : Nat) (bs : Bytes) : State :=
  ({ inst k with tail := tail, head := tail }.storeFrom tail bs).produce bs.length

/-- A descriptor with only an id. -/
def desc (id : U16) : TxDesc :=
  { commandOrResponseId := id, requestId := 0, isResponse := false, compressionMode := 0, encryptionMode := 0,
    isChunked := false, originalLength := 0, packetId := 0, chunkOffset := 0, totalCompressedLength := 0 }

/-- The response, `HEAD`, `TAIL` and `COUNT` after a command. -/
def after (r : Result) : Option (Response × Nat × Nat × Nat) :=
  match r with
  | .next t => t.lastResponse.map fun p => (p, t.head, t.tail, t.count)
  | .fault _ => none
  | .refused _ => none

/-- The command that a record decodes to. -/
def decoded (record : Bytes) : Option Instr :=
  match decode record with
  | .ok i => some i
  | .error _ => none

/-- `COUNT = 5`: the state RB-5 of the vectors. -/
abbrev rb5 : State := ringAt 3 0 [1, 2, 3, 4, 5]

/-- The full ring RB-2 of the vectors. -/
abbrev rb2 : State := ringAt 3 0 [1, 2, 3, 4, 5, 6, 7, 8]

/-- T1 of the vectors. -/
abbrev frameT1 : Bytes := [0x40, 0x0B, 0x00, 0x07, 0x00, 0x91, 0x82, 0xAA, 0x80, 0x80, 0x80, 0xC1, 0xC2, 0xC3, 0x80, 0x00]

/-- T2 of the vectors, the smallest frame. -/
abbrev frameT2 : Bytes := [0x00, 0x03, 0x00, 0x01, 0x00, 0x4D, 0x44, 0x00]

/-- T4 of the vectors. -/
abbrev frameT4 : Bytes := [0x00, 0x07, 0x00, 0x02, 0x00, 0xC3, 0xC5, 0x80, 0x80, 0x80, 0x80, 0x00]

/-- `s` while a command holds the lock: what `step` gives a meaning. -/
abbrev held (s : State) : State := { s with busy := true }

/-- `s` with one presented record. -/
def presenting (s : State) (record : Bytes) : State := s.present 7 record

/-! ### Well-formedness: the one check is the length of the byte operand -/

theorem test_illFormed_tooLongForARecord : ¬ (Instr.rbWrite (List.replicate recordBound 0)).WellFormed := by
  simp [Instr.WellFormed, Instr.bytesOperand]

theorem test_illFormed_tooLongPayload : ¬ (Instr.frSerializeUdp (desc 1) (List.replicate recordBound 0)).WellFormed := by
  simp [Instr.WellFormed, Instr.bytesOperand]

/-! ### Decoding: one record per command, written out -/

/-- The descriptor that the records below carry. -/
abbrev wireDesc : TxDesc :=
    { commandOrResponseId := 0x1234, requestId := 5, isResponse := true, compressionMode := 1, encryptionMode := 7,
      isChunked := false, originalLength := 100, packetId := -1, chunkOffset := 3000, totalCompressedLength := 5000 }

theorem test_decode_rbWrite : decoded [0x01, 0x02, 0x00, 0x00, 0x00, 0xAA, 0xBB] = some (.rbWrite [0xAA, 0xBB]) := by decide

theorem test_decode_rbRead : decoded [0x02, 0x03, 0x00, 0x00, 0x00, 0x02, 0x01, 0x00, 0x00] = some (.rbRead 3 258) := by decide

theorem test_decode_rbPeek : decoded [0x03, 0x04, 0x03, 0x02, 0x01, 0x00, 0x00, 0x00, 0x80] = some (.rbPeek 0x01020304 0x80000000) := by decide

theorem test_decode_rbPeekByte : decoded [0x04, 0x09, 0x00, 0x00, 0x00] = some (.rbPeekByte 9) := by decide

theorem test_decode_rbPeekHeader : decoded [0x05, 0x00, 0x01, 0x00, 0x00] = some (.rbPeekHeader 256) := by decide

theorem test_decode_rbSkipUntil : decoded [0x06, 0x01, 0x00, 0x00, 0x00, 0xA2] = some (.rbSkipUntil 1 0xA2) := by decide

theorem test_decode_rbSkip : decoded [0x07, 0xFF, 0xFF, 0xFF, 0xFF] = some (.rbSkip 0xFFFFFFFF) := by decide

theorem test_decode_rbStat : decoded [0x08] = some (.rbStat) := by decide

theorem test_decode_pcEncode : decoded [0x10, 0x01, 0x00, 0x00, 0x00, 0x7F] = some (.pcEncode [0x7F]) := by decide

theorem test_decode_pcDecode : decoded [0x11, 0x02, 0x00, 0x00, 0x00, 0xFF, 0x80] = some (.pcDecode [0xFF, 0x80]) := by decide

theorem test_decode_hcWriteHeader : decoded
    [0x20, 0x34, 0x12, 0x05, 0x00, 0x00, 0x00, 0x01, 0x01, 0x07, 0x00, 0x64, 0x00, 0x00, 0x00, 0xFF, 0xFF, 0xFF,
      0xFF, 0xB8, 0x0B, 0x00, 0x00, 0x88, 0x13, 0x00, 0x00, 0x14, 0x01]
    = some (.hcWriteHeader wireDesc 0x0114) := by decide

theorem test_decode_hcReadHeader : decoded [0x21, 0x01, 0x01, 0x00, 0x00, 0x00, 0x40] = some (.hcReadHeader true [0x40]) := by decide

theorem test_decode_hcReadOptional : decoded [0x22, 0xE8, 0x00, 0x00, 0x00, 0x00] = some (.hcReadOptional 0xE8 []) := by decide

theorem test_decode_frSerializeTcp : decoded
    [0x30, 0x34, 0x12, 0x05, 0x00, 0x00, 0x00, 0x01, 0x01, 0x07, 0x00, 0x64, 0x00, 0x00, 0x00, 0xFF, 0xFF, 0xFF,
      0xFF, 0xB8, 0x0B, 0x00, 0x00, 0x88, 0x13, 0x00, 0x00, 0x02, 0x00, 0x00, 0x00, 0xDE, 0xAD]
    = some (.frSerializeTcp wireDesc [0xDE, 0xAD]) := by decide

theorem test_decode_frSerializeUdp : decoded
    [0x31, 0x34, 0x12, 0x05, 0x00, 0x00, 0x00, 0x01, 0x01, 0x07, 0x00, 0x64, 0x00, 0x00, 0x00, 0xFF, 0xFF, 0xFF,
      0xFF, 0xB8, 0x0B, 0x00, 0x00, 0x88, 0x13, 0x00, 0x00, 0x00, 0x00, 0x00, 0x00]
    = some (.frSerializeUdp wireDesc []) := by decide

theorem test_decode_frDeserializeTcp : decoded [0x32, 0x01, 0x00, 0x00, 0x00, 0x33] = some (.frDeserializeTcp [0x33]) := by decide

theorem test_decode_frDeserializeUdp : decoded [0x33, 0x01, 0x00, 0x00, 0x00, 0x34] = some (.frDeserializeUdp [0x34]) := by decide

theorem test_decode_frPoll : decoded [0x34] = some (.frPoll) := by decide

theorem test_decode_rejects_byName :
    decode [] = .error .emptyRecord ∧ decode [0x09] = .error (.reservedOpcode 0x09) ∧
    decode [0x07, 0x00, 0x00, 0x00] = .error .truncatedOperands ∧
    decode [0x21, 0x02, 0x00, 0x00, 0x00, 0x00] = .error .operandOutOfRange ∧
    decode [0x34, 0x00] = .error .trailingBytes := ⟨rfl, rfl, rfl, rfl, rfl⟩

/-- R77: 18 of the 256 opcode bytes are defined. -/
theorem test_decode_definedOpcodes : ((List.range 256).filter fun w => (decodeTableWord 8 w).isSome) =
    [0x01, 0x02, 0x03, 0x04, 0x05, 0x06, 0x07, 0x08, 0x10, 0x11, 0x20, 0x21, 0x22, 0x30, 0x31, 0x32, 0x33, 0x34] := by
  decide +kernel

/-- R81. -/
theorem test_asm_rbRead : asmInstr (.rbRead 3 2) = "RB_READ 3, 2" := by decide

/-! ### One step of each command, from the vectors -/

/-- RB-2. -/
theorem test_rbWrite_short :
    after (exec (.rbWrite [1, 2, 3, 4, 5, 6, 7, 8, 9, 10]) (inst 3)) = some (⟨.ok, .written 8⟩, 0, 0, 8) := by decide

/-- RB-3. -/
theorem test_rbWrite_full :
    after (exec (.rbWrite [0xFF]) rb2) = some (⟨.ok, .written 0⟩, 0, 0, 8) := by decide

/-- RB-4. -/
theorem test_rbRead_skips :
    after (exec (.rbRead 3 2) rb2) = some (⟨.ok, .read [3, 4, 5] 3⟩, 0, 5, 3) := by decide

/-- RB-5. -/
theorem test_rbRead_zero :
    after (exec (.rbRead 0 2) rb5) = some (⟨.ok, .read [] 0⟩, 5, 0, 5) := by decide

/-- RB-8. -/
theorem test_rbPeek_clamped :
    after (exec (.rbPeek 9 1) rb5) = some (⟨.ok, .read [2, 3, 4, 5] 4⟩, 5, 0, 5) := by decide

/-- RB-9. -/
theorem test_rbPeekByte_last :
    after (exec (.rbPeekByte 4) rb5) = some (⟨.ok, .peekByte true 5⟩, 5, 0, 5) := by decide

/-- RB-10. -/
theorem test_rbPeekByte_absent :
    after (exec (.rbPeekByte 5) rb5) = some (⟨.ok, .peekByte false 0⟩, 5, 0, 5) := by decide

/-- RB-18. -/
theorem test_rbPeekHeader :
    after (exec (.rbPeekHeader 0) (ringAt 5 0 frameT1)) = some (⟨.ok, .header 0x40 7 11 0x8291⟩, 16, 0, 16) := by decide

/-- RB-19. -/
theorem test_rbPeekHeader_short :
    after (exec (.rbPeekHeader 10) (ringAt 5 0 frameT1)) = some (⟨.needMore, .absent⟩, 16, 0, 16) := by decide

/-- RB-13. -/
theorem test_rbSkipUntil_found :
    after (exec (.rbSkipUntil 0 3) rb5) = some (⟨.ok, .found true⟩, 5, 3, 2) := by decide

/-- RB-14. -/
theorem test_rbSkipUntil_absent :
    after (exec (.rbSkipUntil 3 3) rb5) = some (⟨.ok, .found false⟩, 5, 5, 0) := by decide

/-- RB-11. -/
theorem test_rbSkip_clamped :
    after (exec (.rbSkip 10) rb5) = some (⟨.ok, .absent⟩, 5, 5, 0) := by decide

/-- RB-1. -/
theorem test_rbStat :
    after (exec (.rbStat) (inst 3)) = some (⟨.ok, .stat 0 0 0 8⟩, 0, 0, 0) := by decide

/-- PC-11. -/
theorem test_pcEncode_twoGroups :
    after (exec (.pcEncode [0x00, 0x7F, 0x80, 0xFF, 0x01, 0xFE, 0x55, 0xAA]) (inst 3)) = some (⟨.ok, .codec [0x80, 0xFF, 0x80, 0xFF, 0x81, 0xFE, 0xD5, 0xAC, 0xAA, 0x81] 0x9133⟩, 0, 0, 0) := by decide

/-- PC-17. -/
theorem test_pcDecode_bit7Clear :
    after (exec (.pcDecode [0x01, 0x80]) (inst 3)) = some (⟨.ok, .codec [0x01] 0xE5C3⟩, 0, 0, 0) := by decide

/-- PC-18. -/
theorem test_pcDecode_length :
    after (exec (.pcDecode [0x80]) (inst 3)) = some (⟨.decodeLength, .absent⟩, 0, 0, 0) := by decide

/-- HC-1. -/
theorem test_hcWriteHeader_request :
    after (exec (.hcWriteHeader { desc 7 with requestId := 42 } 7) (inst 3)) = some (⟨.ok, .built [0x40, 0x07, 0x00, 0x07, 0x00, 0x2A, 0x00, 0x00, 0x00] 9⟩, 0, 0, 0) := by decide

/-- HC-4. -/
theorem test_hcWriteHeader_reserved :
    after (exec (.hcWriteHeader { desc 1 with compressionMode := 2 } 0) (inst 3)) = some (⟨.badOperand, .absent⟩, 0, 0, 0) := by decide

/-- HC-6. -/
theorem test_hcReadHeader_stream :
    after (exec (.hcReadHeader true [0x40, 0x0B, 0x00, 0x07, 0x00, 0x91, 0x82, 0xAA]) (inst 3)) = some (⟨.ok, .header 0x40 7 11 0x8291⟩, 0, 0, 0) := by decide

/-- HC-8. -/
theorem test_hcReadHeader_datagram :
    after (exec (.hcReadHeader false [0x40, 0x0B, 0x00, 0x07, 0x00]) (inst 3)) = some (⟨.ok, .header 0x40 7 11 0⟩, 0, 0, 0) := by decide

/-- HC-11. -/
theorem test_hcReadOptional_all :
    after (exec (.hcReadOptional 0xE8
      [0x05, 0, 0, 0, 0x64, 0, 0, 0, 0x09, 0, 0, 0, 0xB8, 0x0B, 0, 0, 0x88, 0x13, 0, 0, 0xDE, 0xAD]) (inst 3)) = some (⟨.ok, .optional ⟨5, 100, 9, 3000, 5000⟩ 20⟩, 0, 0, 0) := by decide

/-- HC-13. -/
theorem test_hcReadOptional_short :
    after (exec (.hcReadOptional 0x40 [0x2A, 0, 0]) (inst 3)) = some (⟨.malformedBody, .absent⟩, 0, 0, 0) := by decide

/-- FR-1. -/
theorem test_frSerializeTcp_T1 :
    after (exec (.frSerializeTcp { desc 7 with requestId := 42 } [0x41, 0x42, 0x43]) (inst 3)) = some (⟨.ok, .built frameT1 16⟩, 0, 0, 0) := by decide

/-- FR-1. -/
theorem test_frSerializeUdp_U1 :
    after (exec (.frSerializeUdp { desc 7 with requestId := 42 } [0x41, 0x42, 0x43]) (inst 3)) = some (⟨.ok, .built [0x40, 0x07, 0x00, 0x07, 0x00, 0x2A, 0x00, 0x00, 0x00, 0x41, 0x42, 0x43] 12⟩, 0, 0, 0) := by decide

/-- FR-8. -/
theorem test_frDeserializeTcp_T2 :
    after (exec (.frDeserializeTcp frameT2) (inst 3)) = some (⟨.ok, .rx ⟨0x00, 1, 3, 0x444D, false, false, false, 0, 0, 0, 0, 0, 0, 0, []⟩⟩, 0, 0, 0) := by decide

/-- FR-12. -/
theorem test_frDeserializeTcp_checksum :
    after (exec (.frDeserializeTcp [0x00, 0x03, 0x00, 0x01, 0x00, 0x4C, 0x44, 0x00]) (inst 3)) = some (⟨.checksumMismatch, .absent⟩, 0, 0, 0) := by decide

/-- V-UDP-5. -/
theorem test_frDeserializeUdp_reservedMode :
    after (exec (.frDeserializeUdp [0x18, 0x05, 0x00, 0x09, 0x00, 0x64, 0x00, 0x00, 0x00, 0xAB]) (inst 3)) = some (⟨.ok, .rx ⟨0x18, 9, 5, 0, false, false, false, 3, 0, 0, 100, 0, 0, 0, [0xAB]⟩⟩, 0, 0, 0) := by decide

/-- V-UDP-10. -/
theorem test_frDeserializeUdp_chunkBounds :
    after (exec (.frDeserializeUdp
      [0x80, 0x0F, 0, 0x09, 0, 1, 0, 0, 0, 0xFF, 0xFF, 0xFF, 0xFF, 0x88, 0x13, 0, 0, 1, 2, 3]) (inst 3)) = some (⟨.chunkBounds, .absent⟩, 0, 0, 0) := by decide

/-- P2, the poll of T1, which wraps. -/
theorem test_frPoll_wrapped :
    after (exec (.frPoll) (ringAt 5 24 frameT1)) = some (⟨.ok, .poll 16 (some ⟨0x40, 7, 11, 0x8291, false, true, false, 0, 0, 42, 0, 0, 0, 0, [0x41, 0x42, 0x43]⟩)⟩, 8, 8, 0) := by decide

/-- FR-17. -/
theorem test_frPoll_malformedHeader :
    after (exec (.frPoll) (ringAt 5 0 [0x40, 0x02, 0x00, 0x07, 0x00, 0x00, 0x00, 0x99])) = some (⟨.malformedHeader, .poll 3 none⟩, 8, 3, 5) := by decide

/-! ### Steps -/

/-- The host's word of `FR_POLL` is served by the very next step. -/
theorem test_step_withFetchWord :
    after (step (State.reset.withFetchWord 8 0x34)) = some (⟨.needMore, .poll 0 none⟩, 0, 0, 0) := by decide

/-- RB-21. -/
theorem test_step_reservedOpcode :
    after (step (State.reset.withFetchWord 8 0x09)) = some (⟨.illegalCommand, .absent⟩, 0, 0, 0) := by decide

/-- RB-13, through a step: the command acts on the ring while it holds the lock. -/
theorem test_step_rbSkipUntil :
    after (step (presenting rb5 [0x06, 0x00, 0x00, 0x00, 0x00, 0x03])) = some (⟨.ok, .found true⟩, 5, 3, 2) := by decide

/-! ### Witnesses: the hypotheses of each obligation are met, clause by clause, at boundary values -/

theorem witness_DecodeOfEncodeIsTheCommand :
    (Instr.frSerializeTcp (desc 1) [0x41]).WellFormed ∧ (Instr.rbRead 0xFFFFFFFF 0).WellFormed := by decide

theorem witness_EncodeOfDecodeIsTheRecord :
    decode [0x06, 0x05, 0x00, 0x00, 0x00, 0xA2] = .ok (.rbSkipUntil 5 0xA2) := rfl

theorem witness_ReservedOpcodeAnswersIllegalCommand :
    let s := presenting rb5 [0x09, 0x01]
    s.disposed = false ∧ s.busy = false ∧ s.nextRequest = some { issuer := 7, record := 0x09 :: [0x01] } ∧
    (0x09 : Byte).toNat ∉ [1, 2, 3, 4, 5, 6, 7, 8, 0x10, 0x11, 0x20, 0x21, 0x22, 0x30, 0x31, 0x32, 0x33, 0x34] := by decide

theorem witness_StepRunsTheDecodedCommand :
    let s := presenting rb5 [0x07, 0x02, 0x00, 0x00, 0x00]
    s.disposed = false ∧ s.busy = false ∧
    s.nextRequest = some { issuer := 7, record := [0x07, 0x02, 0x00, 0x00, 0x00] } ∧
    decode [0x07, 0x02, 0x00, 0x00, 0x00] = .ok (.rbSkip 2) := ⟨rfl, rfl, rfl, rfl⟩

theorem witness_StepServesOneOfThePending_step :
    let s := presenting (presenting { rb5 with schedule := [1] } [0x08]) [0x34]
    s.pending ≠ [] ∧ (after (step s)).isSome = true := by decide

theorem witness_StepServesOneOfThePending_schedule :
    let s := presenting (presenting { rb5 with schedule := [1, 0] } [0x08]) [0x34]
    1 < s.pending.length ∧ s.schedule = 1 :: [0] := by decide

theorem witness_StepsWithoutService :
    ({ rb5 with busy := true }.disposed = false ∧ { rb5 with busy := true }.busy = true) ∧
    (rb5.disposed = false ∧ rb5.busy = false ∧ rb5.pending = []) := by decide

theorem witness_EveryCommandPreservesTheRingInvariants :
    (held (inst 3)).ringOk ∧ (held rb5).ringOk ∧ (held rb2).ringOk ∧ (held (ringAt 5 24 frameT1)).ringOk := by decide

theorem witness_StepKeepsTheInvariant :
    (presenting rb5 [0x34]).Inv ∧ (after (step (presenting rb5 [0x34]))).isSome = true := by decide

/-- A poll and a reserved opcode, both presented. -/
abbrev twoPresented : State := presenting (presenting rb5 [0x34]) [0x09]

theorem witness_PresentableRunsAreSafe :
    twoPresented.Inv ∧ twoPresented.disposed = false ∧ ∀ r ∈ twoPresented.pending, presentable r.record := by
  refine ⟨by decide, rfl, ?_⟩
  rw [show twoPresented.pending = [⟨7, [0x34]⟩, ⟨7, [0x09]⟩] by decide]
  intro r hr
  rcases (by simpa using hr : r = ⟨7, [0x34]⟩ ∨ r = ⟨7, [0x09]⟩) with rfl | rfl
  · exact .inl ⟨.frPoll, rfl⟩
  · exact .inr ⟨0x09, [], rfl, by decide⟩

theorem witness_StatusesAreThoseOfTheTable :
    after (exec .frPoll rb5) = some (⟨.needMore, .poll 0 none⟩, 5, 0, 5) := by decide

theorem witness_RbWriteAppendsWhatFits :
    (held rb2).ringOk ∧ (held (inst 0)).ringOk ∧
    ((held rb5).ringOk ∧ min [(1 : Byte), 2].length (2 ^ (held rb5).cfg.k - (held rb5).count) < 2 ^ 32) := by decide

theorem witness_RbReadDeliversAndConsumes :
    min (((9 : U32).toNat : Int)) ((rb5.count : Int) - (5 : U32).toNat) ≤ 0 ∧
    0 < min (((9 : U32).toNat : Int)) ((rb5.count : Int) - (4 : U32).toNat) := by decide

theorem witness_RbPeekHeaderReadsTheStreamHeader :
    (rb2.count : Int) - (2 : U32).toNat < 7 ∧ 7 ≤ (rb2.count : Int) - (1 : U32).toNat := by decide

theorem witness_RbStatShowsTheCursors :
    ((held rb2).ringOk ∧ (held rb2).cfg.k < 32) ∧ ((held (inst 31)).ringOk ∧ (held (inst 31)).cfg.k < 32) := by decide

theorem witness_RbClearEmptiesTheRing : (held rb2).ringOk ∧ (held rb2).count < 2 ^ 32 := by decide

theorem witness_BytesLeaveInTheOrderWritten :
    (held rb5).ringOk ∧ writesFit [.rbWrite [9, 10, 11], .rbRead 4 1, .rbWrite [12]] (held rb5) := by
  refine ⟨by decide, by decide, fun t ht => ⟨Nat.zero_le _, fun u hu => ⟨?_, fun v _ => trivial⟩⟩⟩
  cases ht
  cases hu
  decide

theorem witness_ReadsReturnWhatWasWrittenInOrder :
    (held (inst 3)).ringOk ∧ (held (inst 3)).count = 0 ∧ writesFit [.rbWrite [9, 10], .rbRead 1 0] (held (inst 3)) ∧
    ∀ i ∈ [Instr.rbWrite [9, 10], .rbRead 1 0], (∃ src, i = .rbWrite src) ∨ ∃ len, i = .rbRead len 0 := by
  refine ⟨by decide, rfl, ⟨by decide, fun t _ => ⟨Nat.zero_le _, fun _ _ => trivial⟩⟩, ?_⟩
  simp

theorem witness_OnlyTheContentsAreObserved :
    let s := held rb5
    let u := ringAt 3 6 [1, 2, 3, 4, 5]
    s.ringOk ∧ u.ringOk ∧ s.cfg = u.cfg ∧ s.validBytes = u.validBytes ∧ s.mem ≠ u.mem ∧
    Instr.frPoll ≠ .rbStat := by decide

theorem witness_InvalidBytesAreNeverObserved :
    let s := held rb5
    let u := (held rb5).storeFrom 6 [0x77]
    s.ringOk ∧ u.ringOk ∧ s.sameButInvalidBytes u ∧ s.mem ≠ u.mem :=
  ⟨by decide, by decide, ⟨rfl, by decide⟩, by decide⟩

theorem witness_OnlyTheNamedCommandsMoveTheCursors :
    after (exec (.rbWrite [9]) rb5) = some (⟨.ok, .written 1⟩, 6, 0, 6) ∧
    after (exec (.rbSkip 1) rb5) = some (⟨.ok, .absent⟩, 5, 1, 4) := by decide

theorem witness_CapacityIsTheNextPowerOfTwo :
    1 ≤ 1 ∧ 1 ≤ 2 ^ 0 ∧ 1 ≤ 1025 ∧ 1025 ≤ 2 ^ 11 := by decide

theorem witness_CodecLengths :
    ([] : Bytes).length % 8 ≠ 1 ∧ ([0x81, 0x80] : Bytes).length % 8 ≠ 1 := by decide

theorem witness_DecodeIgnoresUnusedBits :
    ([0x01, 0x80] : Bytes).length % 8 ≠ 1 ∧ sameUsedBits [0x01, 0x80] [0x81, 0xFE] := by
  refine ⟨by decide, rfl, ?_⟩
  decide

theorem witness_ChecksumTagBit :
    (rd16 [0x00, 0x03, 0x00, 0x01, 0x00, 0x4C, 0x44, 0x00] 5).getLsbD 0 = false := by decide

theorem witness_PcDecodeAnswers :
    ([0x80] : Bytes).length % 8 = 1 ∧ ([] : Bytes).length % 8 ≠ 1 ∧ ([0x80, 0x80] : Bytes).length % 8 ≠ 1 := by decide

theorem witness_HcWriteHeaderAnswers :
    1 < ({ desc 1 with compressionMode := 2 } : TxDesc).compressionMode.toNat ∧
    ({ desc 1 with compressionMode := 1 } : TxDesc).compressionMode.toNat ≤ 1 := by decide

theorem witness_HcReadHeaderAnswers :
    (frameT1.take 6).length < 7 ∧ 7 ≤ (frameT1.take 7).length ∧ (frameT1.take 4).length < 5 ∧ 5 ≤ (frameT1.take 5).length := by decide

theorem witness_HcReadOptionalAnswers :
    ([0x2A, 0, 0] : Bytes).length < optSize 0x40 ∧ optSize 0x40 ≤ ([0x2A, 0, 0, 0] : Bytes).length := by decide

theorem witness_HeaderRoundTrip :
    ({ desc 1 with compressionMode := 1 } : TxDesc).compressionMode.toNat ≤ 1 := by decide

theorem witness_FrSerializeTcpAnswers :
    1 < ({ desc 1 with compressionMode := 3 } : TxDesc).compressionMode.toNat ∧
    ((desc 1).compressionMode.toNat ≤ 1 ∧
      57340 < (optFields (desc 1) (flagsOf (desc 1)) ++ List.replicate 57341 0).length) ∧
    ((desc 1).compressionMode.toNat ≤ 1 ∧
      (optFields (desc 1) (flagsOf (desc 1)) ++ List.replicate 57340 0).length ≤ 57340) := by
  refine ⟨by decide, ⟨by decide, ?_⟩, by decide, ?_⟩ <;>
    · rw [List.length_append, List.length_replicate]
      decide

theorem witness_FrSerializeUdpAnswers :
    1 < ({ desc 1 with compressionMode := 3 } : TxDesc).compressionMode.toNat ∧
    ((desc 1).compressionMode.toNat ≤ 1 ∧
      0xFFFF < (optFields (desc 1) (flagsOf (desc 1)) ++ List.replicate 65536 0).length) ∧
    ((desc 1).compressionMode.toNat ≤ 1 ∧
      (optFields (desc 1) (flagsOf (desc 1)) ++ List.replicate 65535 0).length ≤ 0xFFFF) := by
  refine ⟨by decide, ⟨by decide, ?_⟩, by decide, ?_⟩ <;>
    · rw [List.length_append, List.length_replicate]
      decide

/-- A chunk that ends exactly at the message's end. -/
abbrev lastChunk : TxDesc := { desc 9 with isChunked := true, chunkOffset := 4997, totalCompressedLength := 5000 }

theorem witness_StreamFrameRoundTrip :
    lastChunk.compressionMode.toNat ≤ 1 ∧ (optFields lastChunk (flagsOf lastChunk) ++ [1, 2, 3]).length ≤ 57340 ∧
    chunkFits lastChunk 3 := ⟨by decide, by decide, fun _ => by decide⟩

theorem witness_DatagramRoundTrip :
    lastChunk.compressionMode.toNat ≤ 1 ∧ (optFields lastChunk (flagsOf lastChunk) ++ [1, 2, 3]).length ≤ 0xFFFF ∧
    chunkFits lastChunk 3 := ⟨by decide, by decide, fun _ => by decide⟩

theorem witness_FrPollActsOnTheContents :
    (held (ringAt 5 24 frameT1)).ringOk ∧ (held (inst 3)).ringOk ∧ (held rb2).ringOk := by decide

theorem witness_FrPollMakesProgress :
    let s := held (ringAt 5 0 (frameT1.take 15))
    s.ringOk ∧ 7 ≤ s.count ∧ 5 + (rd16 s.validBytes 1).toNat ≤ 2 ^ s.cfg.k := by decide

theorem witness_RingTooSmallForAFrame :
    let s := held (ringAt 2 1 [1, 2, 3, 4])
    let u := held (ringAt 3 0 (frameT1.take 7))
    (s.ringOk ∧ s.cfg.k < 3) ∧
    (u.ringOk ∧ 7 ≤ u.count ∧ 2 ^ u.cfg.k < 5 + (rd16 u.validBytes 1).toNat) := by decide

theorem witness_FullRingIsNeverStuck :
    (held rb2).ringOk ∧ 3 ≤ (held rb2).cfg.k ∧ (held rb2).count = 2 ^ (held rb2).cfg.k := by decide

theorem witness_FrPollDeliversASerializedFrame :
    let s := held (ringAt 5 24 (frameT2 ++ [0x11]))
    s.ringOk ∧ chunkFits (desc 1) 0 ∧ serializeTcp (checksumFn s.cfg.checksum) (desc 1) [] = .ok frameT2 ∧
    s.validBytes = frameT2 ++ [0x11] := ⟨by decide, fun h => absurd h (by decide), by rfl, by decide⟩

/-- The claim is lowered from 7 to 3, the least, and to 6, the greatest. -/
theorem witness_LoweredLengthIsCaught :
    let s := held (ringAt 5 0 ([byteAt frameT4 0] ++ le16 3 ++ frameT4.drop 3 ++ []))
    let u := held (ringAt 5 24 ([byteAt frameT4 0] ++ le16 6 ++ frameT4.drop 3 ++ [0x11]))
    (s.ringOk ∧ serializeTcp (checksumFn s.cfg.checksum) (desc 2) [0, 0, 0] = .ok frameT4 ∧
      3 ≤ (3 : U16).toNat ∧ (3 : U16).toNat < (rd16 frameT4 1).toNat ∧
      s.validBytes = [byteAt frameT4 0] ++ le16 3 ++ frameT4.drop 3 ++ []) ∧
    (u.ringOk ∧ serializeTcp (checksumFn u.cfg.checksum) (desc 2) [0, 0, 0] = .ok frameT4 ∧
      3 ≤ (6 : U16).toNat ∧ (6 : U16).toNat < (rd16 frameT4 1).toNat ∧
      u.validBytes = [byteAt frameT4 0] ++ le16 6 ++ frameT4.drop 3 ++ [0x11]) :=
  ⟨⟨by decide, by rfl, by decide⟩, by decide, by rfl, by decide⟩

theorem witness_FrameInPiecesIsDeliveredOnce :
    let s := held (ringAt 3 5 [])
    s.ringOk ∧ s.count = 0 ∧ chunkFits (desc 1) 0 ∧
    serializeTcp (checksumFn s.cfg.checksum) (desc 1) [] = .ok frameT2 ∧ frameT2.length ≤ 2 ^ s.cfg.k ∧
    (∀ p ∈ [frameT2.take 3, frameT2.drop 3], p ≠ []) ∧ [frameT2.take 3, frameT2.drop 3].flatten = frameT2 :=
  ⟨by decide, by decide, fun h => absurd h (by decide), by rfl, by decide, by decide, by decide⟩

theorem witness_PureCommandsAreIdempotent :
    isPure (.frDeserializeTcp frameT1) = true ∧ isPure .rbStat = true := by decide

theorem witness_StatelessCommandsIgnoreTheRing :
    readsNoRing (.pcEncode [1]) = true ∧ rb2.cfg.checksum = (inst 5).cfg.checksum := by decide

end Sys2Proof.Tests
end

-- ==== Proofs of the family 10_state: the ring invariants and what a command observes of the ring ====
section
/-! SUPPORT. The rules of `10_state.md`. The invariants follow from `exec_cases`, which says what a command can do to the
ring. The two noninterference statements follow from one relational form of it, `exec_answersAlike`: in two states with
the same contents a command moves the ring in the same way and gives the same response. -/

namespace Sys2Proof.Machine

open Sys2Proof.Spec

/-! ### The invariants (R25, R26, R29, R50) -/

/-- Every command answers a next state, keeps the ring invariants, clears the lock and writes no parameter. -/
theorem exec_keeps_invariant (i : Instr) {s : State} (h : s.ringOk) :
    ∃ t, exec i s = .next t ∧ t.Inv ∧ t.cfg = s.cfg := by
  obtain ⟨m, st, r, hm, e⟩ := exec_cases i s
  exact ⟨m.respond st r, e, ⟨hm.keeps h.1 h.2, rfl⟩, hm.frame.1⟩

theorem State.create_inv (c : Config.Setup) : (State.create c).Inv :=
  ⟨⟨⟨State.cap_pos _, State.cap_pos _, Nat.zero_le _, (State.wrap_of_lt (State.cap_pos _)).symm⟩,
    State.create_mem_wf c, by simp⟩, rfl⟩

/-- `HEAD = TAIL` exactly in an empty or a full ring: otherwise they are fewer than `C` positions apart. -/
theorem State.head_eq_tail_iff {s : State} (h : s.cursorsOk) : s.head = s.tail ↔ s.count = 0 ∨ s.count = s.cap := by
  obtain ⟨-, htail, hcount, hhead⟩ := h
  have hwrap : s.wrap (s.tail + 0) = s.tail := State.wrap_of_lt htail
  constructor
  · intro heq
    rcases Nat.lt_or_eq_of_le hcount with hlt | hfull
    · exact .inl (State.wrap_add_inj hlt s.cap_pos (by rw [hwrap, ← hhead, heq]))
    · exact .inr hfull
  · rintro (hempty | hfull)
    · rw [hhead, hempty, hwrap]
    · rw [hhead, hfull, s.wrap_eq_mod, Nat.add_mod_right, Nat.mod_eq_of_lt htail]

/-- Settles O9: each move of `exec_cases` keeps the invariants, and a response clears the lock. -/
theorem everyCommandPreservesTheRingInvariants : Obligations.EveryCommandPreservesTheRingInvariants := by
  refine ⟨fun c => ⟨rfl, State.create_inv c⟩, fun i s h => ?_, fun s => ⟨s.validBytes_length, fun i hi => ?_⟩,
    fun s h => State.head_eq_tail_iff h.1⟩
  · obtain ⟨t, e, hinv, -⟩ := exec_keeps_invariant i h
    obtain ⟨-, -, hcount, hhead⟩ := hinv.1.1
    exact ⟨t, e, hinv, hcount, hhead⟩
  · rw [List.getElem?_eq_getElem (by simpa using hi), State.validBytes_getElem]
    rfl

/-- Settles O10: a step does nothing, answers a reserved opcode, or runs a command from the accepted request. -/
theorem stepKeepsTheInvariant : Obligations.StepKeepsTheInvariant := by
  intro s t hinv hstep
  obtain ⟨-, -, ⟨-, rfl⟩ | ⟨r, -, hserve⟩⟩ := step_next hstep
  · exact ⟨hinv, rfl⟩
  · rcases serve_next hserve with ⟨i, -, e⟩ | ⟨b, -, rfl⟩
    · obtain ⟨u, e', hu, hcfg⟩ := exec_keeps_invariant i ((s.accept_ringOk r).mpr hinv.1)
      obtain rfl : u = t := by simpa [e] using e'.symm
      exact ⟨hu, hcfg⟩
    · exact ⟨⟨hinv.1, rfl⟩, rfl⟩

/-! ### What moves which cursor (R22, R23, R24) -/

/-- `HEAD` and `MEM` move only by an append. -/
theorem RingMove.head_mem {i : Instr} {s m : State} (h : RingMove i s m) :
    (m.head = s.head ∧ m.mem = s.mem) ∨ ∃ src, i = .rbWrite src := by
  cases h with
  | append src n hi hn => exact .inr ⟨src, hi⟩
  | stay => exact .inl ⟨rfl, rfl⟩
  | discard n hi hn => exact .inl ⟨rfl, rfl⟩
  | clear hi => exact .inl ⟨rfl, rfl⟩

/-- `TAIL` moves only by a discarding command. -/
theorem RingMove.tail {i : Instr} {s m : State} (h : RingMove i s m) : m.tail = s.tail ∨ consumes i = true := by
  cases h with
  | stay => exact .inl rfl
  | append src n hi hn => exact .inl (by simp)
  | discard n hi hn => exact .inr hi
  | clear hi => exact .inr hi

/-- The discarding commands, by name. -/
theorem eq_of_consumes {i : Instr} (h : consumes i = true) :
    (∃ len skip, i = .rbRead len skip) ∨ (∃ n, i = .rbSkip n) ∨ (∃ offset v, i = .rbSkipUntil offset v) ∨
      i = .frPoll := by
  cases i with
  | rbRead len skip => exact .inl ⟨len, skip, rfl⟩
  | rbSkip n => exact .inr (.inl ⟨n, rfl⟩)
  | rbSkipUntil offset v => exact .inr (.inr (.inl ⟨offset, v, rfl⟩))
  | frPoll => exact .inr (.inr (.inr rfl))
  | rbWrite _ | rbPeek _ _ | rbPeekByte _ | rbPeekHeader _ | rbStat | pcEncode _ | pcDecode _ | hcWriteHeader _ _
  | hcReadHeader _ _ | hcReadOptional _ _ | frSerializeTcp _ _ | frSerializeUdp _ _ | frDeserializeTcp _
  | frDeserializeUdp _ => cases h

/-- Settles O28: by the moves of `exec_cases`; the response moves no cursor. -/
theorem onlyTheNamedCommandsMoveTheCursors : Obligations.OnlyTheNamedCommandsMoveTheCursors := by
  intro i s t ht
  obtain ⟨m, st, r, hm, e⟩ := exec_cases i s
  obtain rfl : m.respond st r = t := by simpa [e] using ht
  exact ⟨fun hne => hm.head_mem.resolve_left fun ⟨hhead, hmem⟩ => hne.elim (· hhead) (· hmem),
    fun hne => eq_of_consumes (hm.tail.resolve_left hne)⟩

/-! ### The capacity (R26) -/

/-- The search finds a power of two that is large enough, where its fuel reaches one. -/
theorem le_two_pow_capacityLog2From {fuel k c : Nat} (h : c ≤ 2 ^ (k + fuel)) :
    c ≤ 2 ^ capacityLog2From fuel k c := by
  induction fuel generalizing k with
  | zero => exact h
  | succ fuel ih =>
    rw [capacityLog2From]
    split
    · next hk => exact hk
    · exact ih (by rwa [Nat.add_right_comm])

/-- The search passes no exponent that is large enough. -/
theorem capacityLog2From_le {fuel k c j : Nat} (hkj : k ≤ j) (hj : c ≤ 2 ^ j) : capacityLog2From fuel k c ≤ j := by
  induction fuel generalizing k with
  | zero => exact hkj
  | succ fuel ih =>
    rw [capacityLog2From]
    split
    · exact hkj
    · next hk => exact ih (Nat.lt_of_le_of_ne hkj fun e => hk (e ▸ hj))

/-- Settles O29: the upward search stops at the first exponent that is large enough, and no move writes `K`. -/
theorem capacityIsTheNextPowerOfTwo : Obligations.CapacityIsTheNextPowerOfTwo := by
  refine ⟨fun c _ => ⟨le_two_pow_capacityLog2From ?_, fun j => capacityLog2From_le j.zero_le⟩, rfl, rfl,
    fun i s t ht => ?_⟩
  · simpa using Nat.lt_two_pow_self.le
  · obtain ⟨m, st, r, hm, e⟩ := exec_cases i s
    obtain rfl : m.respond st r = t := by simpa [e] using ht
    have hcfg : (m.respond st r).cfg = s.cfg := hm.frame.1
    exact ⟨congrArg _ hcfg, State.cap_congr hcfg, rfl⟩

/-! ### The commands that read no ring state (R32) -/

/-- A response alone changes nothing but the responses and the lock. -/
theorem State.respond_onlyAnswered (s : State) (st : Status) (r : Results) : s.onlyAnswered (s.respond st r) st r :=
  ⟨⟨rfl, rfl⟩, ⟨rfl, rfl, rfl, rfl⟩, rfl, rfl, rfl, rfl, rfl, rfl⟩

/-- What a serializer built decides the response. -/
theorem State.respondBuilt_eq (x : Except Status Bytes) :
    ∃ st r, ∀ s : State, s.respondBuilt x = s.respond st r := by
  cases x with
  | ok frame => exact ⟨_, _, fun _ => rfl⟩
  | error st => exact ⟨_, _, fun _ => rfl⟩

/-- What a deserializer found decides the response. -/
theorem State.respondRx_eq (x : Except Status RxResult) : ∃ st r, ∀ s : State, s.respondRx x = s.respond st r := by
  cases x with
  | ok x => exact ⟨_, _, fun _ => rfl⟩
  | error st => exact ⟨_, _, fun _ => rfl⟩

/-- What the deserializer found, and the length of the frame, decide the response of `FR_POLL`. -/
theorem State.respondPolled_eq (total : Nat) (x : Except Status RxResult) :
    ∃ st r, ∀ s : State, s.respondPolled total x = s.respond st r := by
  cases x with
  | ok x => exact ⟨_, _, fun _ => rfl⟩
  | error st => exact ⟨_, _, fun _ => rfl⟩

/-- A command that reads no ring state gives a response that the checksum function alone decides, and does nothing
else. -/
theorem exec_of_readsNoRing {i : Instr} (hi : readsNoRing i = true) (ck : Config.ChecksumChoice) :
    ∃ st r, ∀ s : State, s.cfg.checksum = ck → exec i s = .next (s.respond st r) := by
  cases i with
  | pcEncode src => exact ⟨.ok, .codec (payloadEncode src) (checksumFn ck src), fun s h => by rw [← h]; rfl⟩
  | pcDecode src =>
    by_cases hb : badEncodedLength src = true
    · exact ⟨_, _, fun s h => if_pos hb⟩
    · exact ⟨.ok, .codec (payloadDecode src) (checksumFn ck (payloadDecode src)),
        fun s h => by rw [← h]; exact if_neg hb⟩
  | hcWriteHeader d dl =>
    by_cases hb : reservedCompression d = true
    · exact ⟨_, _, fun s h => if_pos hb⟩
    · exact ⟨_, _, fun s h => if_neg hb⟩
  | hcReadHeader stream src =>
    by_cases hb : src.length < headerNeed stream
    · exact ⟨_, _, fun s h => if_pos hb⟩
    · exact ⟨_, _, fun s h => if_neg hb⟩
  | hcReadOptional f src =>
    by_cases hb : src.length < optSize f
    · exact ⟨_, _, fun s h => if_pos hb⟩
    · exact ⟨_, _, fun s h => if_neg hb⟩
  | frSerializeTcp d payload =>
    obtain ⟨st, r, e⟩ := State.respondBuilt_eq (serializeTcp (checksumFn ck) d payload)
    exact ⟨st, r, fun s h => congrArg _ (h ▸ e s)⟩
  | frSerializeUdp d payload =>
    obtain ⟨st, r, e⟩ := State.respondBuilt_eq (serializeUdp d payload)
    exact ⟨st, r, fun s _ => congrArg _ (e s)⟩
  | frDeserializeTcp frame =>
    obtain ⟨st, r, e⟩ := State.respondRx_eq (deserializeTcp (checksumFn ck) frame)
    exact ⟨st, r, fun s h => congrArg _ (h ▸ e s)⟩
  | frDeserializeUdp dgram =>
    obtain ⟨st, r, e⟩ := State.respondRx_eq (deserializeUdp dgram)
    exact ⟨st, r, fun s _ => congrArg _ (e s)⟩
  | rbWrite _ | rbRead _ _ | rbPeek _ _ | rbPeekByte _ | rbPeekHeader _ | rbSkipUntil _ _ | rbSkip _ | rbStat
  | frPoll => cases hi

/-- Settles O58: the response is the one `exec_of_readsNoRing` names, in both states. -/
theorem statelessCommandsIgnoreTheRing : Obligations.StatelessCommandsIgnoreTheRing := by
  intro i s s' hi hck
  obtain ⟨st, r, e⟩ := exec_of_readsNoRing hi s.cfg.checksum
  exact ⟨_, _, st, r, e s rfl, e s' hck.symm, s.respond_onlyAnswered st r, s'.respond_onlyAnswered st r⟩

/-! ### Two states with the same contents (R22, R25) -/

/-- The same parameters and the same valid bytes, wherever in `MEM` these lie. -/
structure State.SameContents (s s' : State) : Prop where
  cfg : s.cfg = s'.cfg
  bytes : s.validBytes = s'.validBytes

theorem State.byteAt_validBytes {s : State} {i : Nat} (h : i < s.count) :
    byteAt s.validBytes i = s.memRead (s.tail + i) := s.byteAt_readRange h

namespace State.SameContents

variable {s s' : State} (h : s.SameContents s')
include h

theorem count : s'.count = s.count := by rw [← s.validBytes_length, h.bytes, s'.validBytes_length]

theorem cap : s'.cap = s.cap := State.cap_congr h.cfg.symm

theorem checksum : s'.checksum = s.checksum := funext (State.checksum_congr h.cfg.symm)

theorem deliverable (len skip : Nat) : s'.deliverable len skip = s.deliverable len skip := by
  rw [State.deliverable, State.deliverable, h.count]

theorem memRead {i : Nat} (hi : i < s.count) : s'.memRead (s'.tail + i) = s.memRead (s.tail + i) := by
  rw [← State.byteAt_validBytes hi, h.bytes, State.byteAt_validBytes (h.count ▸ hi)]

theorem readRange {start n : Nat} (hn : start + n ≤ s.count) : s'.readRange start n = s.readRange start n := by
  rw [State.readRange_eq_slice hn, h.bytes, State.readRange_eq_slice (h.count ▸ hn)]

theorem scan (v : Byte) {fuel i : Nat} (hf : fuel ≤ s.count - i) : s'.scan v fuel i = s.scan v fuel i := by
  induction fuel generalizing i with
  | zero => rfl
  | succ fuel ih => rw [State.scan, State.scan, h.memRead (by omega), ih (by omega)]

theorem findFrom (offset : Nat) (v : Byte) : s'.findFrom offset v = s.findFrom offset v := by
  rw [State.findFrom, State.findFrom, h.count, h.scan v (Nat.le_refl _)]

end State.SameContents

/-! ### One move in two states -/

/-- The two states `m` and `m'` come from `s` and `s'` by the same move of the ring. -/
inductive SameMove (s s' : State) : State → State → Prop
  | stay : SameMove s s' s s'
  | append (bs : Bytes) (n : Nat) (hlen : bs.length = n) (hfit : n ≤ s.cap - s.count) :
      SameMove s s' ((s.storeFrom s.head bs).produce n) ((s'.storeFrom s'.head bs).produce n)
  | discard (n : Nat) : SameMove s s' (s.consume n) (s'.consume n)
  | clear : SameMove s s' s.discardAll s'.discardAll

/-- Bytes that fit are appended to the valid bytes, and no valid byte is overwritten (R160). -/
theorem State.append_validBytes {s : State} (h : s.ringOk) {bs : Bytes} (hfit : bs.length ≤ s.cap - s.count) :
    ((s.storeFrom s.head bs).produce bs.length).validBytes = s.validBytes ++ bs := by
  obtain ⟨⟨-, -, hcount, hhead⟩, hwf, -⟩ := h
  have hpos : ∀ j, s.wrap (s.head + j) = s.wrap (s.tail + (s.count + j)) := fun j => by
    rw [hhead, s.wrap_wrap_add, Nat.add_assoc]
  apply List.ext_getElem
  · simp
  · intro i hi _
    have hi : i < s.count + bs.length := by simpa using hi
    have hread : ((s.storeFrom s.head bs).produce bs.length).validBytes[i] =
        Memory.read (s.storeFrom s.head bs).mem (s.wrap (s.tail + i)) := by
      rw [State.validBytes_getElem, State.memRead]
      simp
    rw [hread, List.getElem_append]
    split
    · next hold =>
      rw [State.validBytes_length] at hold
      rw [State.validBytes_getElem, State.memRead]
      refine State.read_storeFrom_of_ne hwf _ _ _ fun j hj e => ?_
      have := State.wrap_add_inj (by omega) (by omega) (e.trans (hpos j))
      omega
    · next hnew =>
      rw [State.validBytes_length] at hnew
      have := State.read_storeFrom hwf s.head bs (by omega) (i - s.count) (by omega)
      rw [hpos, Nat.add_sub_cancel' (by omega)] at this
      simpa using this

theorem SameMove.count {s s' m m' : State} (hm : SameMove s s' m m') (h : s'.count = s.count) : m'.count = m.count := by
  cases hm <;> simp [h]

/-- The same move leaves the same valid bytes. -/
theorem SameMove.validBytes {s s' m m' : State} (hm : SameMove s s' m m') (hs : s.ringOk) (hs' : s'.ringOk)
    (h : s.SameContents s') : m.validBytes = m'.validBytes := by
  cases hm with
  | stay => exact h.bytes
  | append bs n hlen hfit =>
    subst hlen
    rw [State.append_validBytes hs hfit, State.append_validBytes hs' (by rwa [h.cap, h.count]), h.bytes]
  | discard n => rw [State.consume_validBytes, State.consume_validBytes, h.bytes]
  | clear => rfl

/-! ### The same command in two states with the same contents -/

/-- The answers `x` and `y` to a command in `s` and `s'` come from the same move and the same response. -/
def AnswersAlike (s s' : State) (x y : Result) : Prop :=
  ∃ m m' st r, SameMove s s' m m' ∧ x = .next (m.respond st r) ∧ y = .next (m'.respond st r)

theorem SameMove.answersAlike {s s' m m' : State} (h : SameMove s s' m m') (st : Status) (r : Results) :
    AnswersAlike s s' (.next (m.respond st r)) (.next (m'.respond st r)) := ⟨m, m', st, r, h, rfl, rfl⟩

/-- A command that branches on the same condition in both states answers alike where each branch does. -/
theorem AnswersAlike.ite {s s' : State} {c : Prop} [Decidable c] {x x' y y' : Result} (hpos : c → AnswersAlike s s' x y)
    (hneg : ¬ c → AnswersAlike s s' x' y') : AnswersAlike s s' (if c then x else x') (if c then y else y') := by
  by_cases hc : c
  · rw [if_pos hc, if_pos hc]; exact hpos hc
  · rw [if_neg hc, if_neg hc]; exact hneg hc

theorem AnswersAlike.of_readsNoRing {s s' : State} (h : s.SameContents s') {i : Instr} (hi : readsNoRing i = true) :
    AnswersAlike s s' (exec i s) (exec i s') := by
  obtain ⟨st, r, e⟩ := exec_of_readsNoRing hi s.cfg.checksum
  exact ⟨s, s', st, r, .stay, e s rfl, e s' (by rw [h.cfg])⟩

namespace State.SameContents

variable {s s' : State} (h : s.SameContents s')
include h

theorem skipUntil (offset : Nat) (v : Byte) : SameMove s s' (s.skipUntil offset v) (s'.skipUntil offset v) := by
  rw [State.skipUntil, State.skipUntil, h.findFrom]
  cases s.findFrom offset v with
  | some p => exact .discard (p + 1)
  | none => exact .clear

theorem resync (offset : Nat) (st : Status) :
    AnswersAlike s s' (.next (s.resync offset st)) (.next (s'.resync offset st)) := by
  have hm := h.skipUntil offset 0x00
  rw [State.resync, State.resync, h.count, hm.count h.count]
  exact hm.answersAlike _ _

theorem execRbWrite (src : Bytes) : AnswersAlike s s' (execRbWrite src s) (execRbWrite src s') := by
  simp only [Machine.execRbWrite, h.cap, h.count]
  exact (SameMove.append _ _ (by simp) (by omega)).answersAlike _ _

/-- The bytes that a read or a peek delivers are valid ones. -/
theorem readRange_deliverable {len skip : Nat} (hn : s.deliverable len skip ≠ 0) :
    s'.readRange skip (s.deliverable len skip) = s.readRange skip (s.deliverable len skip) :=
  h.readRange (by simp only [State.deliverable] at hn ⊢; omega)

theorem execRbRead (len skip : U32) : AnswersAlike s s' (execRbRead len skip s) (execRbRead len skip s') := by
  simp only [Machine.execRbRead, h.deliverable]
  refine .ite (fun _ => SameMove.stay.answersAlike _ _) fun hn => ?_
  rw [h.readRange_deliverable hn]
  exact (SameMove.discard _).answersAlike _ _

theorem execRbPeek (len skip : U32) : AnswersAlike s s' (execRbPeek len skip s) (execRbPeek len skip s') := by
  simp only [Machine.execRbPeek, h.deliverable]
  refine .ite (fun _ => SameMove.stay.answersAlike _ _) fun hn => ?_
  rw [h.readRange_deliverable hn]
  exact SameMove.stay.answersAlike _ _

theorem execRbPeekByte (offset : U32) : AnswersAlike s s' (execRbPeekByte offset s) (execRbPeekByte offset s') := by
  simp only [Machine.execRbPeekByte, h.count]
  refine .ite (fun _ => SameMove.stay.answersAlike _ _) fun hc => ?_
  rw [h.memRead (by omega)]
  exact SameMove.stay.answersAlike _ _

theorem execRbPeekHeader (skip : U32) : AnswersAlike s s' (execRbPeekHeader skip s) (execRbPeekHeader skip s') := by
  simp only [Machine.execRbPeekHeader, h.count]
  refine .ite (fun _ => SameMove.stay.answersAlike _ _) fun hc => ?_
  rw [h.readRange (by omega)]
  exact SameMove.stay.answersAlike _ _

theorem execRbSkipUntil (offset : U32) (value : Byte) :
    AnswersAlike s s' (execRbSkipUntil offset value s) (execRbSkipUntil offset value s') := by
  simp only [Machine.execRbSkipUntil, h.findFrom]
  exact (h.skipUntil _ _).answersAlike _ _

theorem execRbSkip (n : U32) : AnswersAlike s s' (execRbSkip n s) (execRbSkip n s') := by
  simp only [Machine.execRbSkip, h.count]
  exact (SameMove.discard _).answersAlike _ _

theorem execFrPoll : AnswersAlike s s' (execFrPoll s) (execFrPoll s') := by
  simp only [Machine.execFrPoll, h.count, h.cap, h.checksum]
  refine .ite (fun _ => SameMove.stay.answersAlike _ _) fun h7 => ?_
  rw [h.readRange (start := 0) (n := 7) (by omega)]
  generalize (wireDataLength (s.readRange 0 7)).toNat = dl
  refine .ite (fun _ => h.resync _ _) fun _ => .ite (fun _ => h.resync _ _) fun _ =>
    .ite (fun _ => SameMove.stay.answersAlike _ _) fun htotal => ?_
  rw [h.memRead (i := 5 + dl - 1) (by omega), h.readRange (start := 0) (n := 5 + dl) (by omega)]
  refine .ite (fun _ => h.resync _ _) fun _ => ?_
  obtain ⟨st, r, e⟩ := State.respondPolled_eq (5 + dl) (deserializeTcp s.checksum (s.readRange 0 (5 + dl)))
  rw [e, e]
  exact (SameMove.discard _).answersAlike _ _

end State.SameContents

/-- In two states with the same contents every command but `RB_STAT`, which shows the cursors, makes the same move and
gives the same response. -/
theorem exec_answersAlike {i : Instr} (hi : i ≠ .rbStat) {s s' : State} (h : s.SameContents s') :
    AnswersAlike s s' (exec i s) (exec i s') := by
  cases i with
  | rbWrite src => exact h.execRbWrite src
  | rbRead len skip => exact h.execRbRead len skip
  | rbPeek len skip => exact h.execRbPeek len skip
  | rbPeekByte offset => exact h.execRbPeekByte offset
  | rbPeekHeader skip => exact h.execRbPeekHeader skip
  | rbSkipUntil offset value => exact h.execRbSkipUntil offset value
  | rbSkip n => exact h.execRbSkip n
  | rbStat => exact absurd rfl hi
  | frPoll => exact h.execFrPoll
  | pcEncode _ | pcDecode _ | hcWriteHeader _ _ | hcReadHeader _ _ | hcReadOptional _ _ | frSerializeTcp _ _
  | frSerializeUdp _ _ | frDeserializeTcp _ | frDeserializeUdp _ => exact .of_readsNoRing h rfl

@[simp] theorem State.respond_lastResponse (s : State) (st : Status) (r : Results) :
    (s.respond st r).lastResponse = some { status := st, results := r } := rfl

/-- Settles O26: by `exec_answersAlike`, and the same move leaves the same valid bytes. -/
theorem onlyTheContentsAreObserved : Obligations.OnlyTheContentsAreObserved := by
  intro i s s' hs hs' hcfg hbytes hi
  have h : s.SameContents s' := ⟨hcfg, hbytes⟩
  obtain ⟨m, m', st, r, hm, e, e'⟩ := exec_answersAlike hi h
  exact ⟨_, _, e, e', by simp, hm.validBytes hs hs' h⟩

/-! ### Two states that differ in invalid bytes alone (R22) -/

theorem State.sameButInvalidBytes.sameContents {s t : State} (h : s.sameButInvalidBytes t) : s.SameContents t := by
  obtain ⟨hframe, hbytes⟩ := h
  have hcount : s.count = t.count := by rw [← hframe]
  refine ⟨by rw [← hframe], List.ext_getElem (by simpa using hcount) fun i hi _ => ?_⟩
  rw [State.validBytes_getElem, State.validBytes_getElem, hbytes i (by simpa using hi)]

theorem State.sameButInvalidBytes_of_validBytes {s t : State} (hframe : { s with mem := t.mem } = t)
    (hbytes : s.validBytes = t.validBytes) : s.sameButInvalidBytes t := by
  refine ⟨hframe, fun i hi => ?_⟩
  have hi' : i < t.count := by rw [← hframe]; exact hi
  rw [← State.byteAt_validBytes hi, hbytes, State.byteAt_validBytes hi']

/-- Storing into another memory differs in the memory alone. -/
theorem State.storeFrom_withMem (s : State) (mem : Memory) (i : Nat) (bs : Bytes) :
    { s.storeFrom i bs with mem := (State.storeFrom { s with mem := mem } i bs).mem } =
      State.storeFrom { s with mem := mem } i bs := by
  induction bs generalizing s mem i with
  | nil => rfl
  | cons b bs ih => exact ih (s.memWrite i b) _ (i + 1)

/-- The same move leaves a difference in the memory alone, where there was no other. -/
theorem SameMove.frame {s s' m m' : State} (hm : SameMove s s' m m') (h : { s with mem := s'.mem } = s') :
    { m with mem := m'.mem } = m' := by
  obtain ⟨mem, rfl⟩ : ∃ mem, s' = { s with mem := mem } := ⟨s'.mem, h.symm⟩
  cases hm with
  | stay => rfl
  | append bs n hlen hfit => exact congrArg (State.produce · n) (s.storeFrom_withMem mem s.head bs)
  | discard n => rfl
  | clear => rfl

theorem State.sameButInvalidBytes.respond {s t : State} (h : s.sameButInvalidBytes t) (st : Status) (r : Results) :
    (s.respond st r).sameButInvalidBytes (t.respond st r) :=
  ⟨congrArg (State.respond · st r) h.1, h.2⟩

/-- Settles O27: by `exec_answersAlike`; `RB_STAT` shows cursors that are the same in both states. -/
theorem invalidBytesAreNeverObserved : Obligations.InvalidBytesAreNeverObserved := by
  intro i s s' hs hs' hsame
  have h := hsame.sameContents
  by_cases hi : i = .rbStat
  · subst hi
    have hstat : exec .rbStat s' =
        .next (s'.respond .ok (.stat (toU32 s.head) (toU32 s.tail) (toU32 s.count) (toU32 s.cap))) := by
      rw [← hsame.1]; rfl
    exact ⟨_, _, rfl, hstat, hsame.respond _ _⟩
  · obtain ⟨m, m', st, r, hm, e, e'⟩ := exec_answersAlike hi h
    have hmoved := State.sameButInvalidBytes_of_validBytes (hm.frame hsame.1) (hm.validBytes hs hs' h)
    exact ⟨_, _, e, e', hmoved.respond st r⟩

end Sys2Proof.Machine
end

-- ==== Proofs of the family 20_memory: steps and service, side effects, the order of the bytes ====
section
/-! SUPPORT. The rules of `20_memory.md`. What a command can do is read off `exec_cases`: a fitting command takes bytes
from the front of the ring and puts its own behind, and a command without side effect only responds. -/

namespace Sys2Proof.Machine

open Sys2Proof.Spec

/-! ### The order of the bytes (R52, R174) -/

theorem offered_eq_nil {i : Instr} (hi : ∀ src, i ≠ .rbWrite src) : offered i = [] := by
  unfold offered
  split
  · next src => exact absurd rfl (hi src)
  · rfl

/-- A command that is no `RB_WRITE` leaves the end of the valid bytes. -/
theorem RingMove.validBytes_suffix {i : Instr} {s m : State} (h : RingMove i s m) (hi : ∀ src, i ≠ .rbWrite src) :
    m.validBytes <:+ s.validBytes := by
  cases h with
  | stay => exact List.suffix_rfl
  | append src n hw hn => exact absurd hw (hi src)
  | discard n hc hn => exact s.consume_validBytes n ▸ List.drop_suffix n s.validBytes
  | clear hc => exact List.nil_suffix

/-- An `RB_WRITE` that fits appends all its bytes (R160). -/
theorem exec_rbWrite_of_fits {src : Bytes} {s : State} (hs : s.ringOk) (hfit : src.length ≤ s.cap - s.count) :
    ∃ t, exec (.rbWrite src) s = .next t ∧ t.validBytes = s.validBytes ++ src := by
  refine ⟨_, rfl, ?_⟩
  rw [State.respond_validBytes, Nat.min_eq_left hfit, List.take_length, State.append_validBytes hs hfit]

/-- A command whose bytes fit removes bytes at the front of the ring and leaves the others, its own behind them. -/
theorem exec_keeps_order {i : Instr} {s : State} (hs : s.ringOk) (hfit : (offered i).length ≤ s.cap - s.count) :
    ∃ t removed, exec i s = .next t ∧ t.Inv ∧ s.validBytes ++ offered i = removed ++ t.validBytes := by
  obtain ⟨t, e, hinv, -⟩ := exec_keeps_invariant i hs
  by_cases hw : ∃ src, i = .rbWrite src
  · obtain ⟨src, rfl⟩ := hw
    obtain ⟨u, eu, hbytes⟩ := exec_rbWrite_of_fits (src := src) hs hfit
    obtain rfl : u = t := by simpa [eu] using e
    exact ⟨u, [], e, hinv, hbytes.symm⟩
  · have hi : ∀ src, i ≠ .rbWrite src := fun src hsrc => hw ⟨src, hsrc⟩
    obtain ⟨m, st, r, hm, em⟩ := exec_cases i s
    obtain rfl : m.respond st r = t := by simpa [em] using e
    obtain ⟨removed, hbytes⟩ := hm.validBytes_suffix hi
    exact ⟨_, removed, e, hinv, by rw [offered_eq_nil hi, List.append_nil, State.respond_validBytes, hbytes]⟩

theorem execAll_cons {i : Instr} {is : List Instr} {s t : State} (h : exec i s = .next t) :
    execAll (i :: is) s = execAll is t := by
  rw [execAll, h]

/-- Settles O24, by induction on the commands: `exec_keeps_order` for the first, whose removed bytes come before those of
the rest. -/
theorem bytesLeaveInTheOrderWritten : Obligations.BytesLeaveInTheOrderWritten := by
  intro is
  induction is with
  | nil => exact fun s hs _ => ⟨s, [], rfl, hs, id, List.append_nil _⟩
  | cons i is ih =>
    rintro s hs ⟨hfit, hrest⟩
    obtain ⟨u, early, e, ⟨hu, hbusy⟩, hearly⟩ := exec_keeps_order hs hfit
    obtain ⟨t, later, et, ht, hclear, hlater⟩ := ih u hu (hrest u e)
    refine ⟨t, early ++ later, (execAll_cons e).trans et, ht, fun _ => hclear hbusy, ?_⟩
    calc s.validBytes ++ (i :: is).flatMap offered
        = (s.validBytes ++ offered i) ++ is.flatMap offered := by rw [List.flatMap_cons, List.append_assoc]
      _ = early ++ (u.validBytes ++ is.flatMap offered) := by rw [hearly, List.append_assoc]
      _ = (early ++ later) ++ t.validBytes := by rw [hlater, List.append_assoc]

/-! ### A step serves one request (R50, R51) -/

/-- A served request leaves the other requests pending and is answered once. -/
theorem serve_answers {record : Bytes} {s t : State} (h : serve record s = .next t) :
    t.pending = s.pending ∧ ∃ p, t.delivered = { issuer := s.issuer, response := p } :: s.delivered := by
  rcases serve_next h with ⟨i, -, e⟩ | ⟨b, -, rfl⟩
  · obtain ⟨m, st, r, hm, em⟩ := exec_cases i s
    obtain rfl : m.respond st r = t := by simpa [em] using e
    obtain ⟨-, -, -, hpending, -, -, hissuer, hdelivered⟩ := hm.frame
    exact ⟨hpending, ⟨st, r⟩, by rw [State.respond_delivered, hissuer, hdelivered]⟩
  · exact ⟨rfl, _, rfl⟩

theorem State.nextRequest_ne_none {s : State} (h : s.pending ≠ []) : s.nextRequest ≠ none := by
  rw [State.nextRequest, List.getElem?_eq_getElem (State.choice_lt h)]
  exact Option.some_ne_none _

/-- A schedule entry that numbers a pending command is the arbiter's choice (R51). -/
theorem State.choice_of_schedule {s : State} {n : Nat} {rest : List Nat} (hn : n < s.pending.length)
    (h : s.schedule = n :: rest) : s.choice = n := by
  unfold State.choice
  split
  · next hp => simp [hp] at hn
  · next r hp =>
    rw [hp, List.length_singleton] at hn
    omega
  · rw [h]
    exact Nat.mod_eq_of_lt hn

/-- Settles O6: the request that `step_next` gives is the one at the arbiter's choice, and `serve_answers` answers it. -/
theorem stepServesOneOfThePending : Obligations.StepServesOneOfThePending := by
  refine ⟨fun s t hpending hstep => ?_, fun s n rest hn hsched => ?_⟩
  · obtain ⟨-, -, ⟨hnone, -⟩ | ⟨r, hr, hserve⟩⟩ := step_next hstep
    · exact absurd hnone (State.nextRequest_ne_none hpending)
    · obtain ⟨hleft, p, hp⟩ := serve_answers hserve
      exact ⟨s.choice, r, p, hr, hleft, hp⟩
  · rw [State.nextRequest, State.choice_of_schedule hn hsched]

/-- A live block with a clear lock serves the chosen request. -/
theorem step_of_nextRequest {s : State} {r : Request} (hd : s.disposed = false) (hb : s.busy = false)
    (hr : s.nextRequest = some r) : step s = serve r.record (s.accept r) := by
  rw [step, hd, hb, hr]
  rfl

theorem serve_of_decode {record : Bytes} {i : Instr} (h : decode record = .ok i) (s : State) :
    serve record s = exec i s := by
  rw [serve, h]

/-- Settles O5: the command runs on `s.accept r`. -/
theorem stepRunsTheDecodedCommand : Obligations.StepRunsTheDecodedCommand := by
  intro s r i hd hb hr hi
  refine ⟨s.accept r, (step_of_nextRequest hd hb hr).trans (serve_of_decode hi _), ⟨rfl, rfl, rfl, rfl⟩, ?_⟩
  exact ⟨rfl, rfl, rfl, rfl, rfl, rfl, rfl, rfl⟩

/-! ### The commands without side effect (R46) -/

theorem isPure_of_consumes {i : Instr} (h : consumes i = true) : isPure i = false := by
  obtain ⟨len, skip, rfl⟩ | ⟨n, rfl⟩ | ⟨offset, v, rfl⟩ | rfl := eq_of_consumes h <;> rfl

/-- A command without side effect does not move the ring. -/
theorem RingMove.eq_of_isPure {i : Instr} {s m : State} (h : RingMove i s m) (hi : isPure i = true) : m = s := by
  cases h with
  | stay => rfl
  | append src n hw hn => rw [hw] at hi; cases hi
  | discard n hc hn => rw [isPure_of_consumes hc] at hi; cases hi
  | clear hc => rw [isPure_of_consumes hc] at hi; cases hi

/-- A command without side effect only responds. -/
theorem exec_of_isPure {i : Instr} (hi : isPure i = true) (s : State) : ∃ st r, exec i s = .next (s.respond st r) := by
  obtain ⟨m, st, r, hm, e⟩ := exec_cases i s
  obtain rfl := hm.eq_of_isPure hi
  exact ⟨st, r, e⟩

/-- The response can be read off the state after it. -/
theorem State.respond_inj {s m : State} {st st' : Status} {r r' : Results} (h : s.respond st r = m.respond st' r') :
    st = st' ∧ r = r' := by
  simpa using congrArg State.lastResponse h

/-- The response of a command without side effect is the same after another response: neither the cursors nor the
contents, which decide it, have changed. -/
theorem exec_respond_of_isPure {i : Instr} (hi : isPure i = true) {s : State} {st : Status} {r : Results}
    (h : exec i s = .next (s.respond st r)) (st' : Status) (r' : Results) :
    exec i (s.respond st' r') = .next ((s.respond st' r').respond st r) := by
  by_cases hstat : i = .rbStat
  · subst hstat
    obtain ⟨rfl, rfl⟩ := State.respond_inj (Host.Outcome.next.inj h)
    rfl
  · obtain ⟨m, m', st₀, r₀, -, e, e'⟩ := exec_answersAlike hstat (s := s) (s' := s.respond st' r') ⟨rfl, rfl⟩
    obtain ⟨st₁, r₁, e₁⟩ := exec_of_isPure hi (s.respond st' r')
    obtain ⟨rfl, rfl⟩ := State.respond_inj (Host.Outcome.next.inj (h.symm.trans e))
    obtain ⟨rfl, rfl⟩ := State.respond_inj (Host.Outcome.next.inj (e₁.symm.trans e'))
    exact e₁

/-- Settles O57: the command only responds, and its own response does not change the next one. -/
theorem pureCommandsAreIdempotent : Obligations.PureCommandsAreIdempotent := by
  intro i s hi
  obtain ⟨st, r, e⟩ := exec_of_isPure hi s
  exact ⟨_, _, st, r, e, s.respond_onlyAnswered st r, exec_respond_of_isPure hi e st r,
    (s.respond st r).respond_onlyAnswered st r⟩

end Sys2Proof.Machine
end

-- ==== Proofs of the family 30_encoding: command records and the header byte ====
section
/-! SUPPORT. The rules of `30_encoding.md`. Command records (R75 to R78, log 7): each operand's reader has one lemma, an
equivalence, saying that it answers a value and a rest exactly where the record is what the writer makes of that value,
with that rest behind it. From right to left these give that decoding undoes encoding, from left to right that a record
has one meaning. The header byte (R61): it is a sum of fields that do not overlap, and each field is a digit of it. -/

namespace Sys2Proof

/-! ### The readers of one operand -/

/-- A reader followed by another succeeds exactly where both do. -/
theorem except_bind_eq_ok {ε α β : Type} {x : Except ε α} {f : α → Except ε β} {b : β} :
    (x >>= f) = .ok b ↔ ∃ a, x = .ok a ∧ f a = .ok b := by
  cases x with
  | error e => exact ⟨nofun, fun ⟨_, h, _⟩ => nomatch h⟩
  | ok a => exact ⟨fun h => ⟨a, rfl, h⟩, fun ⟨_, h, hf⟩ => Except.ok.inj h ▸ hf⟩

theorem getU8_eq_ok {s rest : Bytes} {v : Byte} : getU8 s = .ok (v, rest) ↔ s = putU8 v ++ rest := by
  rcases s with _ | ⟨a, s⟩ <;> simp [getU8, putU8]

theorem getU16_eq_ok {s rest : Bytes} {v : U16} : getU16 s = .ok (v, rest) ↔ s = le16 v ++ rest := by
  constructor
  · intro h
    match s with
    | [] | [_] => cases h
    | a :: b :: s =>
      obtain ⟨rfl, rfl⟩ : rd16 (a :: b :: s) 0 = v ∧ s = rest := by simpa [getU16] using h
      exact congrArg (· ++ s) (le16_rd16 a b s).symm
  · rintro rfl
    simp [getU16, List.drop_left' (le16_length v)]

theorem getU32_eq_ok {s rest : Bytes} {v : U32} : getU32 s = .ok (v, rest) ↔ s = le32 v ++ rest := by
  constructor
  · intro h
    match s with
    | [] | [_] | [_, _] | [_, _, _] => cases h
    | a :: b :: c :: d :: s =>
      obtain ⟨rfl, rfl⟩ : rd32 (a :: b :: c :: d :: s) 0 = v ∧ s = rest := by simpa [getU32] using h
      exact congrArg (· ++ s) (le32_rd32 a b c d s).symm
  · rintro rfl
    simp [getU32, List.drop_left' (le32_length v)]

/-- The bytes that stand for an operand of `w` bits are those below `2 ^ w`. -/
theorem eq_setWidth_iff {w : Nat} (hw : w ≤ 8) {b : Byte} {v : BitVec w} :
    b = v.setWidth 8 ↔ b.toNat < 2 ^ w ∧ b.setWidth w = v := by
  constructor
  · rintro rfl
    exact ⟨by rw [BitVec.toNat_setWidth_of_le hw]; exact v.isLt, by simp [hw]⟩
  · rintro ⟨hb, rfl⟩
    exact BitVec.eq_of_toNat_eq (by rw [BitVec.toNat_setWidth_of_le hw, BitVec.toNat_setWidth, Nat.mod_eq_of_lt hb])

theorem getBits_eq_ok {w : Nat} (hw : w ≤ 8) {s rest : Bytes} {v : BitVec w} :
    getBits w s = .ok (v, rest) ↔ s = putBits v ++ rest := by
  simp only [getBits, except_bind_eq_ok, Prod.exists, getU8_eq_ok, putU8, putBits]
  constructor
  · rintro ⟨b, t, rfl, h⟩
    split at h
    · next hb =>
      obtain ⟨hv, rfl⟩ : b.setWidth w = v ∧ t = rest := by simpa using h
      rw [(eq_setWidth_iff hw).2 ⟨hb, hv⟩]
    · cases h
  · rintro rfl
    obtain ⟨hb, hv⟩ := (eq_setWidth_iff hw).1 (rfl : v.setWidth 8 = v.setWidth 8)
    exact ⟨_, _, rfl, by rw [if_pos hb, hv]⟩

theorem beq_one_iff {b : BitVec 1} {v : Bool} : (b == 1) = v ↔ b = BitVec.ofBool v := by
  revert b v
  decide

theorem getBool_eq_ok {s rest : Bytes} {v : Bool} : getBool s = .ok (v, rest) ↔ s = putBool v ++ rest := by
  simp only [getBool, except_bind_eq_ok, Prod.exists, getBits_eq_ok (show 1 ≤ 8 by decide), putBool]
  constructor
  · rintro ⟨b, t, rfl, h⟩
    obtain ⟨hv, rfl⟩ : (b == 1) = v ∧ t = rest := by simpa using h
    rw [beq_one_iff.1 hv]
  · rintro rfl
    exact ⟨_, _, rfl, by rw [beq_one_iff.2 rfl]⟩

theorem getBytes_eq_ok {s src rest : Bytes} :
    getBytes s = .ok (src, rest) ↔ src.length < recordBound ∧ s = putBytes src ++ rest := by
  simp only [getBytes, except_bind_eq_ok, Prod.exists, getU32_eq_ok, putBytes]
  constructor
  · rintro ⟨n, t, rfl, h⟩
    split at h
    · next hn =>
      obtain ⟨rfl, rfl⟩ : t.take n.toNat = src ∧ t.drop n.toNat = rest := by simpa using h
      rw [List.length_take_of_le hn, BitVec.ofNat_toNat, BitVec.setWidth_eq, List.append_assoc, List.take_append_drop]
      exact ⟨n.isLt, rfl⟩
    · cases h
  · rintro ⟨hsrc, rfl⟩
    have hn : (BitVec.ofNat 32 src.length).toNat = src.length := Nat.mod_eq_of_lt hsrc
    exact ⟨_, _, List.append_assoc .., by simp [hn]⟩

theorem getTxDesc_eq_ok {s rest : Bytes} {d : TxDesc} : getTxDesc s = .ok (d, rest) ↔ s = putTxDesc d ++ rest := by
  simp only [getTxDesc, except_bind_eq_ok, Prod.exists, getU16_eq_ok, getU32_eq_ok, getBool_eq_ok,
    getBits_eq_ok (show 2 ≤ 8 by decide), getBits_eq_ok (show 3 ≤ 8 by decide), putTxDesc, List.append_assoc]
  constructor
  · rintro ⟨id, _, rfl, rid, _, rfl, resp, _, rfl, comp, _, rfl, enc, _, rfl, ch, _, rfl, orig, _, rfl, pid, _, rfl,
      coff, _, rfl, tot, _, rfl, h⟩
    cases h
    rfl
  · rintro rfl
    exact ⟨_, _, rfl, _, _, rfl, _, _, rfl, _, _, rfl, _, _, rfl, _, _, rfl, _, _, rfl, _, _, rfl, _, _, rfl, _, _, rfl,
      rfl⟩

/-! ### Opcodes -/

theorem opcode_ofCode_code (op : Opcode) : Opcode.ofCode op.code = some op := by
  cases op <;> rfl

theorem code_of_ofCode_eq_some {b : Byte} {op : Opcode} (h : Opcode.ofCode b = some op) : op.code = b := by
  simpa using List.find?_some h

/-! ### Whole records -/

/-- The operands of a well-formed command are read back, whatever follows them. -/
theorem decodeOperands_encodeOperands {i : Instr} (hi : i.WellFormed) (rest : Bytes) :
    decodeOperands i.opcode (encodeOperands i ++ rest) = .ok (i, rest) := by
  cases i <;> simp only [Instr.opcode, encodeOperands, decodeOperands, except_bind_eq_ok, Prod.exists, List.append_assoc,
    getU8_eq_ok, getU16_eq_ok, getU32_eq_ok, getBool_eq_ok, getBytes_eq_ok, getTxDesc_eq_ok]
  case rbStat | frPoll => rfl
  case rbPeekByte | rbPeekHeader | rbSkip => exact ⟨_, _, rfl, rfl⟩
  case rbRead | rbPeek | rbSkipUntil | hcWriteHeader => exact ⟨_, _, rfl, _, _, rfl, rfl⟩
  case rbWrite | pcEncode | pcDecode | frDeserializeTcp | frDeserializeUdp => exact ⟨_, _, ⟨hi, rfl⟩, rfl⟩
  case hcReadHeader | hcReadOptional | frSerializeTcp | frSerializeUdp => exact ⟨_, _, rfl, _, _, ⟨hi, rfl⟩, rfl⟩

/-- Operands that are read are those of the command they are read for, which is well formed. -/
theorem eq_of_decodeOperands {op : Opcode} {s rest : Bytes} {i : Instr} (h : decodeOperands op s = .ok (i, rest)) :
    i.opcode = op ∧ i.WellFormed ∧ s = encodeOperands i ++ rest := by
  have hnil : ([] : Bytes).length < recordBound := Nat.two_pow_pos 32
  cases op <;> simp only [decodeOperands, except_bind_eq_ok, Prod.exists, getU8_eq_ok, getU16_eq_ok, getU32_eq_ok,
    getBool_eq_ok, getBytes_eq_ok, getTxDesc_eq_ok] at h
  case rbStat | frPoll =>
    cases h
    exact ⟨rfl, hnil, rfl⟩
  case rbPeekByte | rbPeekHeader | rbSkip =>
    obtain ⟨v, _, rfl, h⟩ := h
    cases h
    exact ⟨rfl, hnil, rfl⟩
  case rbRead | rbPeek | rbSkipUntil | hcWriteHeader =>
    obtain ⟨v, _, rfl, w, _, rfl, h⟩ := h
    cases h
    exact ⟨rfl, hnil, (List.append_assoc ..).symm⟩
  case rbWrite | pcEncode | pcDecode | frDeserializeTcp | frDeserializeUdp =>
    obtain ⟨src, _, ⟨hsrc, rfl⟩, h⟩ := h
    cases h
    exact ⟨rfl, hsrc, rfl⟩
  case hcReadHeader | hcReadOptional | frSerializeTcp | frSerializeUdp =>
    obtain ⟨v, _, rfl, src, _, ⟨hsrc, rfl⟩, h⟩ := h
    cases h
    exact ⟨rfl, hsrc, (List.append_assoc ..).symm⟩

theorem decode_encode {i : Instr} (hi : i.WellFormed) : decode (encode i) = .ok i := by
  have h := decodeOperands_encodeOperands hi []
  rw [List.append_nil] at h
  simp only [encode, decode, opcode_ofCode_code, except_bind_eq_ok]
  exact ⟨_, h, rfl⟩

theorem encode_of_decode {record : Bytes} {i : Instr} (h : decode record = .ok i) :
    encode i = record ∧ i.WellFormed := by
  unfold decode at h
  split at h
  · cases h
  · next b s =>
    split at h
    · cases h
    · next op hop =>
      obtain ⟨⟨j, rest⟩, hj, hend⟩ := except_bind_eq_ok.1 h
      obtain ⟨hopcode, hwf, rfl⟩ := eq_of_decodeOperands hj
      dsimp only at hend
      split at hend
      · next hrest =>
        obtain rfl := Except.ok.inj hend
        exact ⟨by rw [encode, hopcode, code_of_ofCode_eq_some hop, hrest, List.append_nil], hwf⟩
      · cases hend

/-- Settles O1: each operand's reader undoes its writer, in front of whatever follows. -/
theorem decodeOfEncodeIsTheCommand : Obligations.DecodeOfEncodeIsTheCommand :=
  fun _ => decode_encode

/-- Settles O2: a reader that succeeds has read what the writer makes of its answer. -/
theorem encodeOfDecodeIsTheRecord : Obligations.EncodeOfDecodeIsTheRecord :=
  fun _ _ => encode_of_decode

/-- Settles O3: six of the records are what `encode` writes, and `0x09` is no opcode of R76. -/
theorem writtenOutRecordsDecode : Obligations.WrittenOutRecordsDecode :=
  ⟨decode_encode (i := .rbWrite [0xAA, 0xBB]) (by decide), decode_encode (i := .rbSkipUntil 5 0xA2) (by decide),
   decode_encode (i := .pcDecode [0x80]) (by decide), decode_encode (i := .hcReadOptional 0x40 []) (by decide),
   decode_encode (i := .frDeserializeUdp [0x07]) (by decide), decode_encode (i := .frPoll) (by decide), rfl⟩

end Sys2Proof

namespace Sys2Proof.Machine

/-! ### The header byte (R60, R61) -/

theorem bit8_toNat (b : Bool) : (bit8 b).toNat = b.toNat := by
  cases b <;> rfl

/-- A field above bit `k` and one below it do not overlap: their disjunction is a sum. -/
theorem shiftLeft_or_toNat {x y : Byte} {k a b : Nat} (hx : x.toNat = a) (hy : y.toNat = b) (ha : a * 2 ^ k < 2 ^ 8)
    (hb : b < 2 ^ k) : (x <<< k ||| y).toNat = 2 ^ k * a + b := by
  rw [BitVec.toNat_or, BitVec.toNat_shiftLeft, hx, hy, Nat.shiftLeft_eq, Nat.mod_eq_of_lt ha, ← Nat.shiftLeft_eq,
    ← Nat.shiftLeft_add_eq_or_of_lt hb, Nat.shiftLeft_eq, Nat.mul_comm]

/-- What each field of the header byte can be (R60). -/
theorem headerFields_bounds (d : TxDesc) : d.isChunked.toNat ≤ 1 ∧ (d.requestId != 0).toNat ≤ 1 ∧
    d.isResponse.toNat ≤ 1 ∧ d.compressionMode.toNat < 4 ∧ d.encryptionMode.toNat < 8 :=
  ⟨Bool.toNat_le _, Bool.toNat_le _, Bool.toNat_le _, d.compressionMode.isLt, d.encryptionMode.isLt⟩

/-- `Flags(d)` is the sum of its fields, each above the bits of those after it (R61). -/
theorem flagsOf_toNat (d : TxDesc) : (flagsOf d).toNat = 128 * d.isChunked.toNat + 64 * (d.requestId != 0).toNat
    + 32 * d.isResponse.toNat + 8 * d.compressionMode.toNat + d.encryptionMode.toNat := by
  obtain ⟨hchunked, hrequest, hresponse, hcompression, hencryption⟩ := headerFields_bounds d
  have hcomp : (d.compressionMode.setWidth 8).toNat = d.compressionMode.toNat := BitVec.toNat_setWidth_of_le (by decide)
  have henc : (d.encryptionMode.setWidth 8).toNat = d.encryptionMode.toNat := BitVec.toNat_setWidth_of_le (by decide)
  have hlow := shiftLeft_or_toNat (k := 3) hcomp henc (by omega) (by omega)
  have hresp := shiftLeft_or_toNat (k := 5) (bit8_toNat d.isResponse) hlow (by omega) (by omega)
  have hreq := shiftLeft_or_toNat (k := 6) (bit8_toNat (d.requestId != 0)) hresp (by omega) (by omega)
  have hflags := shiftLeft_or_toNat (k := 7) (bit8_toNat d.isChunked) hreq (by omega) (by omega)
  rw [flagsOf, BitVec.or_assoc, BitVec.or_assoc, BitVec.or_assoc, hflags]
  omega

/-- A bit of a byte is a binary digit of its value. -/
theorem getLsbD_eq_of_toNat {f : Byte} {k : Nat} {b : Bool} (h : f.toNat / 2 ^ k % 2 = b.toNat) : f.getLsbD k = b := by
  rw [← BitVec.testBit_toNat, Nat.testBit_eq_decide_div_mod_eq, h]
  cases b <;> rfl

/-- Settles O38: each field is a digit of the sum `flagsOf_toNat`. -/
theorem headerByteFields : Obligations.HeaderByteFields := by
  intro d
  have hsum := flagsOf_toNat d
  obtain ⟨hchunked, hrequest, hresponse, hcompression, hencryption⟩ := headerFields_bounds d
  refine ⟨hsum, getLsbD_eq_of_toNat ?_, getLsbD_eq_of_toNat ?_, getLsbD_eq_of_toNat ?_, BitVec.eq_of_toNat_eq ?_,
    BitVec.eq_of_toNat_eq ?_⟩
  · omega
  · omega
  · omega
  · rw [compressionModeField, BitVec.extractLsb'_toNat, Nat.shiftRight_eq_div_pow]
    omega
  · rw [encryptionModeField, BitVec.extractLsb'_toNat, Nat.shiftRight_zero]
    omega

end Sys2Proof.Machine
end

-- ==== Proofs of the family 41_payload_codec: the codec by groups, its round trip, the checksum ====
section
/-! SUPPORT. The rules of `41_payload_codec.md`. The codec and the checksum are loops over the bytes; every rule about
them is an induction by groups: 7 raw bytes for `Encode` and the checksum (R100, R108), 7 data bytes and their escape
byte for `Decode` (R101). The spec's pseudocode runs over group and byte indices; `zipIdx_eq_map_range` turns its index
loops over one group into loops over the bytes with their positions, which the model's loops are. -/

namespace Sys2Proof.Machine

open Sys2Proof.Spec

/-! ### The two commands (R110, R112) -/

theorem exec_pcEncode (src : Bytes) (s : State) :
    exec (.pcEncode src) s = .next (s.respond .ok (.codec (payloadEncode src) (s.checksum src))) := rfl

theorem exec_pcDecode_of_badLength {src : Bytes} (h : src.length % 8 = 1) (s : State) :
    exec (.pcDecode src) s = .next (s.respond .decodeLength .absent) :=
  if_pos (beq_iff_eq.mpr h)

theorem exec_pcDecode_of_goodLength {src : Bytes} (h : src.length % 8 ≠ 1) (s : State) :
    exec (.pcDecode src) s = .next (s.respond .ok (.codec (payloadDecode src) (s.checksum (payloadDecode src)))) :=
  if_neg fun hbad => h (beq_iff_eq.mp hbad)

/-! ### Induction by groups -/

/-- Induction over raw bytes by groups of 7, where the short last group, if there is one, is not empty. -/
theorem raw_by_groups {P : Bytes → Prop} (nil : P []) (short : ∀ g, g ≠ [] → g.length < 7 → P g)
    (whole : ∀ g s, g.length = 7 → P s → P (g ++ s)) (s : Bytes) : P s := by
  refine bytes_by_groups 6 (fun g hg => ?_) whole s
  by_cases h0 : g = []
  · exact h0 ▸ nil
  · exact short g h0 hg


/-- Induction over an encoded sequence by groups of data bytes and their escape byte. A lone escape byte, which `Decode`
refuses (R109), counts as a short group without data bytes. -/
theorem encoded_by_groups {P : Bytes → Prop} (nil : P []) (short : ∀ g esc, g.length < 7 → P (g ++ [esc]))
    (whole : ∀ g esc s, g.length = 7 → P s → P (g ++ esc :: s)) (e : Bytes) : P e := by
  induction e using bytes_by_groups 7 with
  | short e he =>
    rcases List.eq_nil_or_concat' e with rfl | ⟨g, esc, rfl⟩
    · exact nil
    · exact short g esc (Nat.lt_of_add_lt_add_right (List.length_append ▸ he))
  | whole c s hc ih =>
    rcases List.eq_nil_or_concat' c with rfl | ⟨g, esc, rfl⟩
    · simp at hc
    · simpa using whole g esc s (by simpa using hc) ih

/-! ### Lengths (R106) -/

theorem payloadEncode_length (s : Bytes) : (payloadEncode s).length = encLen s.length := by
  induction s using raw_by_groups with
  | nil => rfl
  | short g h0 hg =>
    have hpos := List.length_pos_iff.mpr h0
    simp only [payloadEncode_short hg h0, List.length_append, List.length_map, List.length_singleton, encLen]
    omega
  | whole g s hg ih =>
    simp only [payloadEncode_whole hg, List.length_append, List.length_map, List.length_cons, ih, encLen]
    omega

theorem payloadDecode_length (e : Bytes) : (payloadDecode e).length = decLen e.length := by
  induction e using encoded_by_groups with
  | nil => rfl
  | short g esc hg =>
    simp only [payloadDecode_short hg, restoreGroup_length, List.length_append, List.length_singleton, decLen]
    omega
  | whole g esc s hg ih =>
    simp only [payloadDecode_whole hg, List.length_append, restoreGroup_length, List.length_cons, ih, decLen]
    omega

theorem decLen_encLen (n : Nat) : decLen (encLen n) = n := by
  simp only [decLen, encLen]
  omega

theorem encLen_mod_ne_one (n : Nat) : encLen n % 8 ≠ 1 := by
  simp only [encLen]
  omega

/-- No encoded sequence has a length that `Decode` refuses. -/
theorem payloadEncode_length_mod_ne_one (s : Bytes) : (payloadEncode s).length % 8 ≠ 1 :=
  payloadEncode_length s ▸ encLen_mod_ne_one s.length

/-! ### The round trip (R107) -/

/-- One group there and back, from a fresh escape byte. -/
theorem restoreGroup_stuffed {g : Bytes} (hg : g.length ≤ 7) :
    restoreGroup (escapeLoop 0 0x80 g) 0 (g.map stuffByte) = g :=
  restoreGroup_escapeLoop g 0 0x80 (by omega) (by decide)

/-- `Decode` undoes `Encode`, group by group. -/
theorem payloadDecode_payloadEncode (s : Bytes) : payloadDecode (payloadEncode s) = s := by
  induction s using raw_by_groups with
  | nil => rfl
  | short g h0 hg =>
    rw [payloadEncode_short hg h0, payloadDecode_short (by simpa using hg), restoreGroup_stuffed hg.le]
  | whole g s hg ih =>
    rw [payloadEncode_whole hg, payloadDecode_whole (by simpa using hg), restoreGroup_stuffed hg.le, ih]

/-- Settles O32: by `payloadDecode_payloadEncode`; `01 80` and `81 80` decode to the same byte. -/
theorem codecRoundTrip : Obligations.CodecRoundTrip := by
  refine ⟨fun src s => ?_, [0x01, 0x80], [0x81, 0x80], by decide, by decide, by decide, rfl⟩
  have hdecode := exec_pcDecode_of_goodLength (payloadEncode_length_mod_ne_one src) s
  rw [payloadDecode_payloadEncode] at hdecode
  exact ⟨_, _, _, _, exec_pcEncode src s, s.respond_onlyAnswered _ _, hdecode, s.respond_onlyAnswered _ _⟩

/-- Settles O31: by induction by groups, and arithmetic on the length functions. -/
theorem codecLengths : Obligations.CodecLengths :=
  ⟨payloadEncode_length, fun e _ => payloadDecode_length e, fun n => ⟨decLen_encLen n, encLen_mod_ne_one n⟩,
    payloadEncode_length⟩

/-! ### Encoded bytes are never zero (R105) -/

theorem stuffByte_getLsbD_seven (b : Byte) : (stuffByte b).getLsbD 7 = true := by
  simp [stuffByte]

/-- Every byte of a group's encoded form has bit 7 set: a data byte by the stuffing, the escape byte by its sentinel. -/
theorem getLsbD_seven_of_mem_group {g : Bytes} {b : Byte} (h : b ∈ g.map stuffByte ∨ b = escapeLoop 0 0x80 g) :
    b.getLsbD 7 = true := by
  rcases h with h | rfl
  · obtain ⟨x, -, rfl⟩ := List.mem_map.mp h
    exact stuffByte_getLsbD_seven x
  · exact escapeLoop_sentinel g 0 0x80 rfl

theorem payloadEncode_getLsbD_seven {s : Bytes} {b : Byte} (hb : b ∈ payloadEncode s) : b.getLsbD 7 = true := by
  induction s using raw_by_groups with
  | nil => cases hb
  | short g h0 hg =>
    rw [payloadEncode_short hg h0, List.mem_append, List.mem_singleton] at hb
    exact getLsbD_seven_of_mem_group hb
  | whole g s hg ih =>
    rw [payloadEncode_whole hg, List.mem_append, List.mem_cons, ← or_assoc] at hb
    exact hb.elim getLsbD_seven_of_mem_group ih

/-- Settles O30: bit 7 of every encoded byte is set. -/
theorem encodedBytesAreNeverZero : Obligations.EncodedBytesAreNeverZero := by
  intro s b hb
  have hbit := payloadEncode_getLsbD_seven hb
  refine ⟨Nat.ge_two_pow_of_testBit (i := 7) ((BitVec.testBit_toNat b).trans hbit), ?_⟩
  rintro rfl
  cases hbit

/-! ### The pseudocode's index loops -/

/-- The bytes of a group with their positions, by index. -/
theorem zipIdx_eq_map_range (g : Bytes) : g.zipIdx = (List.range g.length).map fun i => (byteAt g i, i) := by
  refine List.ext_getElem (by simp) fun i hi _ => ?_
  rw [List.length_zipIdx] at hi
  simp [byteAt_eq_getElem hi]

/-- The group indices of a sequence with a whole group of `n` in front: 0, and those of the rest moved up by one. -/
theorem range_groups_append {n : Nat} (hn : 0 < n) {g : Bytes} (hg : g.length = n) (s : Bytes) :
    List.range (((g ++ s).length + (n - 1)) / n) = 0 :: (List.range ((s.length + (n - 1)) / n)).map Nat.succ := by
  rw [← List.range_succ_eq_map, List.length_append, hg, Nat.add_assoc, Nat.add_div_left _ hn]

/-- Positions in a later group are positions of the rest. -/
theorem byteAt_append_group {n : Nat} {g : Bytes} (hg : g.length = n) (s : Bytes) (i j : Nat) :
    byteAt (g ++ s) (n * i.succ + j) = byteAt s (n * i + j) := by
  rw [Nat.mul_succ, Nat.add_comm (n * i), Nat.add_assoc, ← hg, byteAt_append_right]

/-- What is left from a later group on is what is left of the rest. -/
theorem length_append_sub_group {n : Nat} {g : Bytes} (hg : g.length = n) (s : Bytes) (i : Nat) :
    (g ++ s).length - n * i.succ = s.length - n * i := by
  rw [List.length_append, hg, Nat.mul_succ, Nat.add_comm (n * i), Nat.add_sub_add_left]

/-! ### `Encode` by groups (R100) -/

theorem escapeLoop_eq_foldl (g : Bytes) (gi : Nat) (esc : Byte) :
    escapeLoop gi esc g = (g.zipIdx gi).foldl (fun esc x => escapeWith esc x.1 x.2) esc := by
  induction g generalizing gi esc with
  | nil => rfl
  | cons b bs ih => exact ih (gi + 1) _

theorem bit8_getLsbD (b : Byte) (i : Nat) : bit8 (b.getLsbD i) = (b >>> i) &&& 1 := by
  ext j hj
  cases j <;> simp [bit8, BitVec.getElem_setWidth]

theorem escapeWith_eq (esc b : Byte) (gi : Nat) : escapeWith esc b gi = esc ||| ((b >>> 7) <<< gi) := by
  have hbit : (b >>> 7) &&& (1 : Byte) = b >>> 7 := by
    revert b
    decide
  rw [escapeWith, bit8_getLsbD, hbit]

theorem groupEscape_eq (g : Bytes) : groupEscape g = escapeLoop 0 0x80 g := by
  rw [groupEscape, escapeLoop_eq_foldl, zipIdx_eq_map_range, List.foldl_map]
  simp only [escapeWith_eq]

theorem encodeByGroups_whole {g : Bytes} (hg : g.length = 7) (s : Bytes) :
    encodeByGroups (g ++ s) = g.map stuffByte ++ escapeLoop 0 0x80 g :: encodeByGroups s := by
  have hfirst : ((g ++ s).drop (7 * 0)).take 7 = g := by simp [← hg]
  have hrest (i : Nat) : (g ++ s).drop (7 * i.succ) = s.drop (7 * i) := by
    rw [Nat.mul_succ, Nat.add_comm, ← hg, List.drop_length_add_append]
  rw [encodeByGroups, range_groups_append (n := 7) (by decide) hg, List.flatMap_cons, List.flatMap_map, hfirst,
    groupEscape_eq]
  simp only [hrest, List.append_assoc]
  rfl

theorem encodeByGroups_short {g : Bytes} (hg : g.length < 7) (h0 : g ≠ []) :
    encodeByGroups g = g.map stuffByte ++ [escapeLoop 0 0x80 g] := by
  have hpos := List.length_pos_iff.mpr h0
  have hone : (g.length + 6) / 7 = 1 := by omega
  rw [encodeByGroups, hone, List.range_one, List.flatMap_singleton, Nat.mul_zero, List.drop_zero,
    List.take_of_length_le hg.le, groupEscape_eq]
  rfl

theorem payloadEncode_eq_encodeByGroups (s : Bytes) : payloadEncode s = encodeByGroups s := by
  induction s using raw_by_groups with
  | nil => rfl
  | short g h0 hg => rw [payloadEncode_short hg h0, encodeByGroups_short hg h0]
  | whole g s hg ih => rw [payloadEncode_whole hg, encodeByGroups_whole hg, ih]

/-- Settles O36: by `payloadEncode_eq_encodeByGroups`. -/
theorem pcEncodeAnswers : Obligations.PcEncodeAnswers := by
  intro src s
  rw [← payloadEncode_eq_encodeByGroups]
  exact ⟨_, exec_pcEncode src s, s.respond_onlyAnswered _ _⟩

/-! ### `Decode` by groups (R101) -/

/-- A data byte of the decoded form: the bits below 7 of the encoded byte, and the bit of the escape byte at its
position. -/
def restoreByte (esc e : Byte) (gi : Nat) : Byte := (e &&& (0x7F : Byte)) ||| (bit8 (esc.getLsbD gi) <<< 7)

theorem restoreGroup_eq_map (esc : Byte) (gi : Nat) (g : Bytes) :
    restoreGroup esc gi g = (g.zipIdx gi).map fun x => restoreByte esc x.1 x.2 := by
  induction g generalizing gi with
  | nil => rfl
  | cons e es ih => exact congrArg (restoreByte esc e gi :: ·) (ih (gi + 1))

theorem decodeByGroups_eq (e : Bytes) : decodeByGroups e = (List.range ((e.length + 7) / 8)).flatMap fun g =>
    let k := min 8 (e.length - 8 * g) - 1
    (List.range k).map fun gi => restoreByte (byteAt e (8 * g + k)) (byteAt e (8 * g + gi)) gi := by
  simp only [decodeByGroups, ← bit8_getLsbD]
  rfl

/-- The pseudocode's loop over the bytes of a first group. -/
theorem restoreGroup_eq_map_range (esc : Byte) (g s : Bytes) :
    (List.range g.length).map (fun gi => restoreByte esc (byteAt (g ++ s) gi) gi) = restoreGroup esc 0 g := by
  rw [restoreGroup_eq_map, zipIdx_eq_map_range, List.map_map]
  refine List.map_congr_left fun gi hgi => ?_
  rw [byteAt_append_left _ (List.mem_range.mp hgi)]
  rfl

theorem decodeByGroups_whole {g : Bytes} (hg : g.length = 7) (esc : Byte) (s : Bytes) :
    decodeByGroups (g ++ esc :: s) = restoreGroup esc 0 g ++ decodeByGroups s := by
  have hlen : (g ++ [esc]).length = 8 := by simp [hg]
  have hk : min 8 (g ++ esc :: s).length - 1 = g.length := by
    rw [List.append_cons, List.length_append, hlen]
    omega
  have hesc : byteAt (g ++ esc :: s) g.length = esc := byteAt_append_right g (esc :: s) 0
  rw [decodeByGroups_eq, decodeByGroups_eq, List.append_cons, range_groups_append (n := 8) (by decide) hlen,
    List.flatMap_cons, List.flatMap_map]
  simp only [byteAt_append_group hlen, length_append_sub_group hlen]
  simp only [← List.append_cons, Nat.mul_zero, Nat.zero_add, Nat.sub_zero, hk, hesc, restoreGroup_eq_map_range]

theorem decodeByGroups_short {g : Bytes} (hg : g.length < 7) (esc : Byte) :
    decodeByGroups (g ++ [esc]) = restoreGroup esc 0 g := by
  have hone : ((g ++ [esc]).length + 7) / 8 = 1 := by
    rw [List.length_append, List.length_singleton]
    omega
  have hk : min 8 (g ++ [esc]).length - 1 = g.length := by
    rw [List.length_append, List.length_singleton]
    omega
  have hesc : byteAt (g ++ [esc]) g.length = esc := byteAt_append_right g [esc] 0
  rw [decodeByGroups_eq, hone, List.range_one, List.flatMap_singleton]
  simp only [Nat.mul_zero, Nat.zero_add, Nat.sub_zero, hk, hesc, restoreGroup_eq_map_range]

theorem payloadDecode_eq_decodeByGroups (e : Bytes) : payloadDecode e = decodeByGroups e := by
  induction e using encoded_by_groups with
  | nil => rfl
  | short g esc hg => rw [payloadDecode_short hg, decodeByGroups_short hg]
  | whole g esc s hg ih => rw [payloadDecode_whole hg, decodeByGroups_whole hg, ih]

/-- Settles O37: the length decides, and `payloadDecode_eq_decodeByGroups`. -/
theorem pcDecodeAnswers : Obligations.PcDecodeAnswers := by
  intro src s
  rw [← payloadDecode_eq_decodeByGroups]
  exact ⟨fun h => ⟨_, exec_pcDecode_of_badLength h s, s.respond_onlyAnswered _ _⟩,
    fun h => ⟨_, exec_pcDecode_of_goodLength h s, s.respond_onlyAnswered _ _⟩⟩

/-! ### The bits that `Decode` does not read (R113) -/

/-- A restored byte reads the bits below 7 of the data byte and one bit of the escape byte. -/
theorem restoreByte_congr {esc esc' e e' : Byte} {gi : Nat} (hesc : esc.getLsbD gi = esc'.getLsbD gi)
    (hdata : ∀ i, i < 7 → e.getLsbD i = e'.getLsbD i) : restoreByte esc e gi = restoreByte esc' e' gi := by
  have hmask (i : Nat) (hi : i < 8) : (0x7F : Byte).getLsbD i = decide (i < 7) := by
    revert i
    decide
  have hand : e &&& 0x7F = e' &&& 0x7F := by
    refine BitVec.eq_of_getLsbD_eq fun i hi => ?_
    rw [BitVec.getLsbD_and, BitVec.getLsbD_and, hmask i hi]
    by_cases h7 : i < 7
    · rw [hdata i h7]
    · simp [h7]
  rw [restoreByte, restoreByte, hesc, hand]

/-- The pseudocode reads only the used bits. -/
theorem decodeByGroups_congr {e e' : Bytes} (h : sameUsedBits e e') : decodeByGroups e = decodeByGroups e' := by
  obtain ⟨hlen, hbits⟩ := h
  rw [decodeByGroups_eq, decodeByGroups_eq, ← hlen]
  refine List.flatMap_congr fun g hg => List.map_congr_left fun gi hgi => ?_
  rw [List.mem_range] at hg hgi
  have hdata := hbits (8 * g + gi) (by omega)
  rw [if_neg (by omega)] at hdata
  have hesc := hbits (8 * g + (min 8 (e.length - 8 * g) - 1)) (by omega)
  rw [if_pos (by omega)] at hesc
  exact restoreByte_congr (hesc gi (by omega)) hdata

/-- Settles O33: the answer is a function of the pseudocode's result, which reads only the used bits. -/
theorem decodeIgnoresUnusedBits : Obligations.DecodeIgnoresUnusedBits := by
  refine ⟨fun e e' s he hsame => ?_, rfl, rfl⟩
  have hdecode : payloadDecode e' = payloadDecode e := by
    rw [payloadDecode_eq_decodeByGroups, payloadDecode_eq_decodeByGroups, decodeByGroups_congr hsame]
  have hexec := exec_pcDecode_of_goodLength (hsame.1 ▸ he) s
  rw [hdecode] at hexec
  exact ⟨_, _, _, _, exec_pcDecode_of_goodLength he s, s.respond_onlyAnswered _ _, hexec, s.respond_onlyAnswered _ _⟩

/-! ### The tag bit (R103, R104) -/

theorem checksumFn_getLsbD_zero (c : Config.ChecksumChoice) (s : Bytes) : (checksumFn c s).getLsbD 0 = true := by
  cases c with
  | reference h0 => simp [checksumFn, referenceChecksum, ckFinal]
  | external n => simp [checksumFn]

/-- The low byte of a field with bit 0 set is not zero. -/
theorem byteAt_le16_ne_zero {v : U16} (h : v.getLsbD 0 = true) : byteAt (le16 v) 0 ≠ 0 := by
  intro hzero
  have hbit : (byteAt (le16 v) 0).getLsbD 0 = true := by simpa [le16] using h
  rw [hzero] at hbit
  cases hbit

/-- A frame whose checksum field is the checksum of no bytes is refused (R214): by an earlier check, or as
`CHECKSUM_MISMATCH`. -/
theorem deserializeTcp_of_checksum_ne {ck : Bytes → U16} {frame : Bytes} (h : ∀ body, ck body ≠ wireChecksum frame) :
    ∃ st, deserializeTcp ck frame = .error st ∧ st ≠ .ok := by
  simp only [deserializeTcp, deserializeBody, if_pos (h _)]
  split_ifs <;> exact ⟨_, rfl, by decide⟩

/-- Settles O34: both instantiations force bit 0, so no checksum equals a field with that bit clear. -/
theorem checksumTagBit : Obligations.ChecksumTagBit := by
  refine ⟨fun c s => ⟨checksumFn_getLsbD_zero c s, byteAt_le16_ne_zero (checksumFn_getLsbD_zero c s)⟩,
    fun s frame hclear => ?_⟩
  have hne (body : Bytes) : s.checksum body ≠ wireChecksum frame := by
    intro heq
    have hset : (wireChecksum frame).getLsbD 0 = true := heq ▸ checksumFn_getLsbD_zero _ body
    exact absurd (hset.symm.trans hclear) (by decide)
  obtain ⟨st, hst, hok⟩ := deserializeTcp_of_checksum_ne hne
  refine ⟨s.fail st, st, ?_, hok, s.respond_onlyAnswered st .absent⟩
  rw [exec, execFrDeserializeTcp, hst]
  rfl

/-! ### The reference checksum by groups (R108) -/

/-- The accumulator of R108 after the bytes of one group. -/
def ckBytes (acc : U32) (g : Bytes) : U32 := g.zipIdx.foldl (fun a x => ckByte a x.1 x.2) acc

/-- The accumulator of R108 after every group of `s`, as the pseudocode's loops compute it. -/
def accByGroups (acc : U32) (s : Bytes) : U32 :=
  (List.range ((s.length + 6) / 7)).foldl (fun acc g =>
    let k := min 7 (s.length - 7 * g)
    ckGroup ((List.range k).foldl (fun acc gi => ckByte acc (byteAt s (7 * g + gi)) gi) acc) k) acc

theorem checksumByGroups_eq (h0 : U32) (s : Bytes) : checksumByGroups h0 s = ckFinal (accByGroups h0 s) := by
  have hrot (x : U32) : (x <<< 13) ||| (x >>> 19) = x.rotateLeft 13 := rfl
  have hhigh (x : U32) : (x >>> 16).setWidth 16 = x.extractLsb' 16 16 := by
    ext i hi
    simp
  have hlow (x : U32) : x.setWidth 16 = x.extractLsb' 0 16 := by
    ext i hi
    simp
  simp only [checksumByGroups, hrot, hhigh, hlow]
  rfl

/-- The pseudocode's loop over the bytes of a first group. -/
theorem ckBytes_eq_foldl_range (acc : U32) (g s : Bytes) :
    (List.range g.length).foldl (fun acc gi => ckByte acc (byteAt (g ++ s) gi) gi) acc = ckBytes acc g := by
  rw [ckBytes, zipIdx_eq_map_range, List.foldl_map]
  refine List.foldl_ext _ _ _ fun a gi hgi => ?_
  rw [byteAt_append_left _ (List.mem_range.mp hgi)]

theorem accByGroups_whole {g : Bytes} (hg : g.length = 7) (acc : U32) (s : Bytes) :
    accByGroups acc (g ++ s) = accByGroups (ckGroup (ckBytes acc g) g.length) s := by
  have hk : min 7 (g ++ s).length = g.length := by simp [hg]
  rw [accByGroups, accByGroups, range_groups_append (n := 7) (by decide) hg, List.foldl_cons, List.foldl_map]
  simp only [byteAt_append_group hg, length_append_sub_group hg, Nat.mul_zero, Nat.zero_add, Nat.sub_zero, hk,
    ckBytes_eq_foldl_range]

theorem accByGroups_short {g : Bytes} (hg : g.length < 7) (h0 : g ≠ []) (acc : U32) :
    accByGroups acc g = ckGroup (ckBytes acc g) g.length := by
  have hpos := List.length_pos_iff.mpr h0
  have hone : (g.length + 6) / 7 = 1 := by omega
  have hbytes := ckBytes_eq_foldl_range acc g []
  rw [List.append_nil] at hbytes
  rw [accByGroups, hone, List.range_one, List.foldl_cons, List.foldl_nil]
  simp only [Nat.mul_zero, Nat.zero_add, Nat.sub_zero, Nat.min_eq_right hg.le, hbytes]

theorem checksumLoop_eq_accByGroups (s : Bytes) (acc : U32) : checksumLoop acc 0 s = accByGroups acc s := by
  induction s using raw_by_groups generalizing acc with
  | nil => rfl
  | short g h0 hg =>
    rw [checksumLoop_short g acc 0 (by omega) (.inr h0), Nat.zero_add, accByGroups_short hg h0, ckBytes]
  | whole g s hg ih =>
    have h0 : g ≠ [] := List.ne_nil_of_length_eq_add_one hg
    rw [checksumLoop_whole g acc 0 s h0 (by omega), ih, accByGroups_whole hg, hg, ckBytes]

/-- Settles O35: by `checksumLoop_eq_accByGroups`. -/
theorem referenceChecksumIsGroupwise : Obligations.ReferenceChecksumIsGroupwise := by
  refine ⟨fun h0 s => ?_, by decide, by decide⟩
  rw [checksumByGroups_eq, ← checksumLoop_eq_accByGroups]
  rfl

end Sys2Proof.Machine
end

-- ==== Proofs of the family 42_header_codec: the header's parts, and reading back what was written ====
section
/-! SUPPORT. The rules of `42_header_codec.md`. The optional fields are five fields of four bytes, each present or empty
(`optField`): their size and what the pseudocode of R138 reads follow field by field. The model reads each field at the
offset of R65; `nextField_drop` says that this is where the pseudocode's running position stands. The lemmas about
`fixedHeader` and `optFields` leave open what follows, which in a frame is the payload. -/

namespace Sys2Proof.Machine

open Sys2Proof.Spec

/-! ### The three commands (R130, R134, R138) -/

theorem exec_hcWriteHeader_of_reserved {d : TxDesc} (h : 1 < d.compressionMode.toNat) (dl : U16) (s : State) :
    exec (.hcWriteHeader d dl) s = .next (s.respond .badOperand .absent) :=
  if_pos (decide_eq_true h)

theorem exec_hcWriteHeader_of_le {d : TxDesc} (h : d.compressionMode.toNat ≤ 1) (dl : U16) (s : State) :
    exec (.hcWriteHeader d dl) s =
      .next (s.respond .ok (.built (writeHeader d dl) (toU32 (writeHeader d dl).length))) :=
  if_neg fun hres => h.not_gt (of_decide_eq_true hres)

theorem exec_hcReadHeader_of_lt {stream : Bool} {src : Bytes} (h : src.length < headerNeed stream) (s : State) :
    exec (.hcReadHeader stream src) s = .next (s.respond .needMore .absent) :=
  if_pos h

theorem exec_hcReadHeader_of_le {stream : Bool} {src : Bytes} (h : headerNeed stream ≤ src.length) (s : State) :
    exec (.hcReadHeader stream src) s = .next (s.respond .ok
      (.header (byteAt src 0) (wireId src) (wireDataLength src) (if stream then wireChecksum src else 0))) :=
  if_neg h.not_gt

theorem exec_hcReadOptional_of_lt {f : Byte} {src : Bytes} (h : src.length < optSize f) (s : State) :
    exec (.hcReadOptional f src) s = .next (s.respond .malformedBody .absent) :=
  if_pos h

theorem exec_hcReadOptional_of_le {f : Byte} {src : Bytes} (h : optSize f ≤ src.length) (s : State) :
    exec (.hcReadOptional f src) s = .next (s.respond .ok (.optional (readOptional f src) (toU32 (optSize f)))) :=
  if_neg h.not_gt

/-- A count that fits 32 bits is shown as it is (R75). -/
theorem toU32_toNat {n : Nat} (h : n < 2 ^ 32) : (toU32 n).toNat = n := by
  rw [toU32, if_pos h, BitVec.toNat_ofNat, Nat.mod_eq_of_lt h]

/-- Settles O41: the length decides; the datagram transport reads no checksum. -/
theorem hcReadHeaderAnswers : Obligations.HcReadHeaderAnswers := fun _ _ s =>
  ⟨fun h => ⟨_, exec_hcReadHeader_of_lt h s, s.respond_onlyAnswered _ _⟩,
    fun h => ⟨_, exec_hcReadHeader_of_le h s, s.respond_onlyAnswered _ _⟩⟩

/-! ### The presence flags (R60, R64) -/

/-- `COMPRESSION_MODE ≠ 0` where one of its two bits is set. -/
theorem compressedFlag_eq (f : Byte) : compressedFlag f = (f.getLsbD 4 || f.getLsbD 3) := by
  revert f
  decide

@[simp] theorem requestFlag_flagsOf (d : TxDesc) : requestFlag (flagsOf d) = (d.requestId != 0) := by
  obtain ⟨-, -, hrequest, -⟩ := headerByteFields d
  exact hrequest

@[simp] theorem compressedFlag_flagsOf (d : TxDesc) : compressedFlag (flagsOf d) = (d.compressionMode != 0) := by
  obtain ⟨-, -, -, -, hcompression, -⟩ := headerByteFields d
  rw [compressedFlag, hcompression]

@[simp] theorem isChunkedFlag_flagsOf (d : TxDesc) : isChunkedFlag (flagsOf d) = d.isChunked := by
  obtain ⟨-, hchunked, -⟩ := headerByteFields d
  exact hchunked

/-! ### The optional fields, one by one (R64, R129) -/

/-- One field of four bytes, empty where it is absent. -/
def optField (present : Bool) (v : U32) : Bytes := if present then le32 v else []

theorem optField_length (present : Bool) (v : U32) : (optField present v).length = 4 * present.toNat := by
  cases present <;> rfl

theorem optFields_eq (d : TxDesc) (f : Byte) : optFields d f =
    optField (requestFlag f) d.requestId ++ (optField (compressedFlag f) d.originalLength ++
      (optField (isChunkedFlag f) d.packetId ++ (optField (isChunkedFlag f) d.chunkOffset ++
        optField (isChunkedFlag f) d.totalCompressedLength))) := by
  simp only [optFields, optField]
  cases isChunkedFlag f <;> simp

theorem optFields_length (d : TxDesc) (f : Byte) : (optFields d f).length = optSize f := by
  simp only [optFields_eq, List.length_append, optField_length, optSize]
  omega

/-- The sizes that the presence flags allow (R65). -/
theorem optSize_mem (f : Byte) : optSize f ∈ [0, 4, 8, 12, 16, 20] := by
  rw [optSize]
  cases requestFlag f <;> cases compressedFlag f <;> cases isChunkedFlag f <;> decide

theorem optSize_le (f : Byte) : optSize f ≤ 20 := by
  have hrequest := (requestFlag f).toNat_le
  have hcompressed := (compressedFlag f).toNat_le
  have hchunked := (isChunkedFlag f).toNat_le
  rw [optSize]
  omega

/-! ### The written header (R130, R132) -/

theorem fixedHeader_length (f : Byte) (dl id : U16) : (fixedHeader f dl id).length = 5 := rfl

theorem writeHeader_length (d : TxDesc) (dl : U16) : (writeHeader d dl).length = 5 + optSize (flagsOf d) := by
  rw [writeHeader, List.length_append, fixedHeader_length, optFields_length]

/-- The header written out, the presence of each field by the descriptor (R130, R143). -/
theorem writeHeader_eq (d : TxDesc) (dl : U16) :
    writeHeader d dl = [flagsOf d] ++ le16 dl ++ le16 d.commandOrResponseId
      ++ (if d.requestId = 0 then [] else le32 d.requestId)
      ++ (if d.compressionMode = 0 then [] else le32 d.originalLength)
      ++ (if d.isChunked then le32 d.packetId ++ le32 d.chunkOffset ++ le32 d.totalCompressedLength else []) := by
  simp [writeHeader, fixedHeader, optFields]

/-- Settles O39: each present field adds its four bytes. -/
theorem headerLengths : Obligations.HeaderLengths := by
  refine ⟨fun f => ⟨?_, optSize_mem f⟩, fun d => optFields_length d _, fun d dl => ⟨writeHeader_length d dl, ?_⟩⟩
  · rw [← compressedFlag_eq]
    rfl
  · rw [writeHeader_length]
    exact List.mem_map_of_mem (f := (5 + ·)) (optSize_mem (flagsOf d))

/-- Settles O40: the compression mode decides; the bytes are those of `writeHeader_eq`, at most 25. -/
theorem hcWriteHeaderAnswers : Obligations.HcWriteHeaderAnswers := by
  intro d dl s
  refine ⟨fun h => ⟨_, exec_hcWriteHeader_of_reserved h dl s, s.respond_onlyAnswered _ _⟩,
    fun h => ⟨_, _, _, exec_hcWriteHeader_of_le h dl s, s.respond_onlyAnswered _ _, toU32_toNat ?_,
      writeHeader_eq d dl⟩⟩
  have hsize := optSize_le (flagsOf d)
  rw [writeHeader_length]
  omega

/-! ### Reading the optional fields (R138) -/

/-- The pseudocode's next field, read at the position `p`. -/
theorem nextField_drop (present : Bool) (s : Bytes) (p : Nat) :
    nextField present (s.drop p) = (if present then rd32 s p else 0, s.drop (p + 4 * present.toNat)) := by
  cases present <;> simp [nextField]

/-- The pseudocode's next field, where a writer put it. -/
theorem nextField_optField (present : Bool) (v : U32) (rest : Bytes) :
    nextField present (optField present v ++ rest) = (if present then v else 0, rest) := by
  cases present
  · rfl
  · exact congrArg (·, rest) (rd32_le32 v rest)

/-- The pseudocode's fields, with the presence flags by their names (R60). -/
theorem parseOptional_eq (f : Byte) (src : Bytes) : parseOptional f src =
    let r := nextField (requestFlag f) src
    let o := nextField (compressedFlag f) r.2
    let p := nextField (isChunkedFlag f) o.2
    let c := nextField (isChunkedFlag f) p.2
    let t := nextField (isChunkedFlag f) c.2
    { requestId := r.1, originalLength := o.1, packetId := p.1, chunkOffset := c.1, totalCompressedLength := t.1 } := by
  rw [compressedFlag_eq]
  rfl

/-- The offsets of R65 are the pseudocode's running positions. -/
theorem readOptional_eq_parseOptional (f : Byte) (src : Bytes) : readOptional f src = parseOptional f src := by
  rw [parseOptional_eq, ← List.drop_zero (l := src)]
  simp only [nextField_drop]
  cases hc : isChunkedFlag f <;> simp [readOptional, originalLengthOffset, chunkFieldsOffset, hc]

/-- Settles O42: the length decides, and `readOptional_eq_parseOptional`. -/
theorem hcReadOptionalAnswers : Obligations.HcReadOptionalAnswers := by
  intro f src s
  rw [← readOptional_eq_parseOptional]
  refine ⟨fun h => ⟨_, exec_hcReadOptional_of_lt h s, s.respond_onlyAnswered _ _⟩,
    fun h => ⟨_, _, exec_hcReadOptional_of_le h s, toU32_toNat ?_, s.respond_onlyAnswered _ _⟩⟩
  have hsize := optSize_le f
  omega

/-! ### Reading back what was written (R144) -/

theorem byteAt_fixedHeader (f : Byte) (dl id : U16) (rest : Bytes) : byteAt (fixedHeader f dl id ++ rest) 0 = f := rfl

theorem wireDataLength_fixedHeader (f : Byte) (dl id : U16) (rest : Bytes) :
    wireDataLength (fixedHeader f dl id ++ rest) = dl := by
  rw [fixedHeader, List.append_assoc, List.append_assoc, wireDataLength]
  exact (rd16_append_right [f] _ 0).trans (rd16_le16 dl _)

theorem wireId_fixedHeader (f : Byte) (dl id : U16) (rest : Bytes) : wireId (fixedHeader f dl id ++ rest) = id := by
  rw [fixedHeader, List.append_assoc, wireId]
  exact (rd16_append_right ([f] ++ le16 dl) _ 0).trans (rd16_le16 id rest)

theorem drop_fixedHeader (f : Byte) (dl id : U16) (rest : Bytes) : (fixedHeader f dl id ++ rest).drop 5 = rest := rfl

/-- The optional fields of a descriptor as they are read back: a present one as it is, an absent one as 0 (R144). -/
def optionalOf (d : TxDesc) : OptionalFields :=
  { requestId := d.requestId
    originalLength := if d.compressionMode = 0 then 0 else d.originalLength
    packetId := if d.isChunked then d.packetId else 0
    chunkOffset := if d.isChunked then d.chunkOffset else 0
    totalCompressedLength := if d.isChunked then d.totalCompressedLength else 0 }

/-- Each field is read where it was written. -/
theorem readOptional_optFields (d : TxDesc) (rest : Bytes) :
    readOptional (flagsOf d) (optFields d (flagsOf d) ++ rest) = optionalOf d := by
  rw [readOptional_eq_parseOptional, parseOptional_eq, optFields_eq]
  simp only [List.append_assoc, nextField_optField]
  simpa [optionalOf] using fun habsent : d.requestId = 0 => habsent.symm

/-- Settles O43: by the lemmas on `fixedHeader`, and by `readOptional_optFields` with nothing behind the fields. -/
theorem headerRoundTrip : Obligations.HeaderRoundTrip := by
  intro d dl s hmode
  have hread := exec_hcReadHeader_of_le (stream := false) (src := writeHeader d dl)
    (by rw [writeHeader_length]; exact Nat.le_add_right 5 _) s
  rw [writeHeader, byteAt_fixedHeader, wireId_fixedHeader, wireDataLength_fixedHeader] at hread
  have hopt := exec_hcReadOptional_of_le (optFields_length d (flagsOf d)).ge s
  have hfields := readOptional_optFields d []
  rw [List.append_nil] at hfields
  rw [hfields] at hopt
  have hsize := optSize_le (flagsOf d)
  refine ⟨_, _, _, _, _, _, exec_hcWriteHeader_of_le hmode dl s, s.respond_onlyAnswered _ _, hread,
    s.respond_onlyAnswered _ _, hopt, ?_, s.respond_onlyAnswered _ _⟩
  rw [toU32_toNat (by omega), writeHeader_length, Nat.add_sub_cancel_left]

end Sys2Proof.Machine
end

-- ==== Proofs of the family 43_ring_buffer: what each ring command does, and reading back what was written ====
section
/-! SUPPORT. The rules of `43_ring_buffer.md`. Each command is one move of the ring and one response: `RingMove.answered`
gives the frame, the laws of the ring give the move's effect on the valid bytes, and the lemmas below bring the answers
into the terms of the valid bytes and the exact integers of the rules. -/

namespace Sys2Proof.Machine

open Sys2Proof.Spec

/-! ### The frame of a move that is answered (R15, R29, R46) -/

/-- After a move of the ring the response goes to the issuer that was served, and the setting is as it was. -/
theorem RingMove.answered {i : Instr} {s m : State} (h : RingMove i s m) (st : Status) (r : Results) :
    s.answered (m.respond st r) st r ∧ s.sameSetting (m.respond st r) := by
  obtain ⟨hcfg, -, hdisposed, hpending, hschedule, hserved, hissuer, hdelivered⟩ := h.frame
  exact ⟨⟨by rw [State.respond_delivered, hissuer, hdelivered], rfl⟩,
    hcfg, hdisposed, hpending, hschedule, hserved, hissuer⟩

/-! ### What a read or a peek delivers (R162, R164, D15) -/

/-- `deliverable` is the exact minimum of R162, with 0 for what is not positive. -/
theorem State.toNat_min_sub (s : State) (len skip : Nat) :
    (min (len : Int) ((s.count : Int) - skip)).toNat = s.deliverable len skip := by
  rw [State.deliverable]; omega

theorem State.deliverable_lt (s : State) (len : U32) (skip : Nat) : s.deliverable len.toNat skip < 2 ^ 32 :=
  (Nat.min_le_left _ _).trans_lt len.isLt

/-- The skipped bytes and the delivered ones are valid, where any are deliverable. -/
theorem State.add_deliverable_le {s : State} {len skip : Nat} (h : s.deliverable len skip ≠ 0) :
    skip + s.deliverable len skip ≤ s.count := by
  rw [State.deliverable] at h ⊢; omega

/-- The delivered bytes are a slice of the valid bytes, an empty one where nothing is deliverable. -/
theorem State.readRange_deliverable (s : State) (len skip : Nat) :
    s.readRange skip (s.deliverable len skip) = (s.validBytes.drop skip).take (s.deliverable len skip) := by
  by_cases h : s.deliverable len skip = 0
  · rw [h]; rfl
  · exact State.readRange_eq_slice (State.add_deliverable_le h)

theorem exec_rbRead_of_eq_zero {len skip : U32} {s : State} (h : s.deliverable len.toNat skip.toNat = 0) :
    exec (.rbRead len skip) s = .next (s.respond .ok (.read [] 0)) :=
  if_pos h

theorem exec_rbRead_of_ne_zero {len skip : U32} {s : State} (h : s.deliverable len.toNat skip.toNat ≠ 0) :
    exec (.rbRead len skip) s = .next ((s.consume (skip.toNat + s.deliverable len.toNat skip.toNat)).respond .ok
      (.read (s.readRange skip.toNat (s.deliverable len.toNat skip.toNat))
        (toU32 (s.deliverable len.toNat skip.toNat)))) :=
  if_neg h

/-- The two branches of a peek are one answer: that of no bytes is the empty range. -/
theorem exec_rbPeek (len skip : U32) (s : State) :
    exec (.rbPeek len skip) s = .next (s.respond .ok
      (.read (s.readRange skip.toNat (s.deliverable len.toNat skip.toNat))
        (toU32 (s.deliverable len.toNat skip.toNat)))) := by
  by_cases h : s.deliverable len.toNat skip.toNat = 0
  · rw [h]; exact if_pos h
  · exact if_neg h

/-- Settles O15: nothing deliverable is no change; otherwise the move is a `consume` of the skipped and the delivered
bytes. -/
theorem rbReadDeliversAndConsumes : Obligations.RbReadDeliversAndConsumes := by
  intro len skip s n
  have hn : n.toNat = s.deliverable len.toNat skip.toNat := s.toNat_min_sub _ _
  refine ⟨fun hle => ⟨_, exec_rbRead_of_eq_zero (by omega), s.respond_onlyAnswered _ _⟩, fun hpos => ?_⟩
  have hne : s.deliverable len.toNat skip.toNat ≠ 0 := by omega
  have hmove := RingMove.discard (i := .rbRead len skip) _ rfl (State.add_deliverable_le hne)
  obtain ⟨hanswered, hsetting⟩ := hmove.answered .ok
    (.read (s.readRange skip.toNat (s.deliverable len.toNat skip.toNat)) (toU32 (s.deliverable len.toNat skip.toNat)))
  refine ⟨_, _, _, exec_rbRead_of_ne_zero hne, hanswered, ?_, ?_, ?_, ?_, ?_, rfl, rfl, hsetting⟩
  · rw [toU32_toNat (s.deliverable_lt len _)]; omega
  · rw [hn, s.readRange_deliverable]
  · rw [State.readRange_length]; omega
  · rw [hn, Nat.add_assoc]; rfl
  · rw [State.respond_count, State.consume_count]; omega

/-- Settles O16: the one answer of `exec_rbPeek`, in the terms of the valid bytes. -/
theorem rbPeekDeliversAndKeeps : Obligations.RbPeekDeliversAndKeeps := by
  intro len skip s n
  have hn : n.toNat = s.deliverable len.toNat skip.toNat := s.toNat_min_sub _ _
  rw [hn]
  exact ⟨_, _, _, exec_rbPeek len skip s, s.respond_onlyAnswered _ _, s.readRange_deliverable _ _,
    toU32_toNat (s.deliverable_lt len _), s.readRange_length _ _⟩

/-! ### The valid bytes by position (R166, R168, R170) -/

/-- A valid byte at a position is one that lies before `COUNT` and is read there. -/
theorem State.validBytes_getElem?_eq_some {s : State} {i : Nat} {v : Byte} :
    s.validBytes[i]? = some v ↔ i < s.count ∧ s.memRead (s.tail + i) = v := by
  rw [List.getElem?_eq_some_iff]
  simp only [State.validBytes_getElem, State.validBytes_length, exists_prop]

theorem exec_rbPeekByte_of_le {offset : U32} {s : State} (h : s.count ≤ offset.toNat) :
    exec (.rbPeekByte offset) s = .next (s.respond .ok (.peekByte false 0x00)) :=
  if_pos h

theorem exec_rbPeekByte_of_lt {offset : U32} {s : State} (h : offset.toNat < s.count) :
    exec (.rbPeekByte offset) s = .next (s.respond .ok (.peekByte true (s.memRead (s.tail + offset.toNat)))) :=
  if_neg h.not_ge

/-- Settles O17: there is a valid byte at `offset` exactly below `COUNT`. -/
theorem rbPeekByteShowsOneByte : Obligations.RbPeekByteShowsOneByte := by
  intro offset s
  rcases Nat.lt_or_ge offset.toNat s.count with hlt | hge
  · rw [State.validBytes_getElem?_eq_some.mpr ⟨hlt, rfl⟩]
    exact ⟨_, exec_rbPeekByte_of_lt hlt, s.respond_onlyAnswered _ _⟩
  · rw [List.getElem?_eq_none (by simpa using hge)]
    exact ⟨_, exec_rbPeekByte_of_le hge, s.respond_onlyAnswered _ _⟩

theorem exec_rbPeekHeader_of_lt {skip : U32} {s : State} (h : s.count < skip.toNat + 7) :
    exec (.rbPeekHeader skip) s = .next (s.respond .needMore .absent) :=
  if_pos h

/-- Where the header's 7 bytes are all there, `RB_PEEK_HEADER` answers as `HC_READ_HEADER` does on them. -/
theorem exec_rbPeekHeader_of_le {skip : U32} {s : State} (h : skip.toNat + 7 ≤ s.count) :
    exec (.rbPeekHeader skip) s = exec (.hcReadHeader true ((s.validBytes.drop skip.toNat).take 7)) s := by
  rw [← State.readRange_eq_slice h, exec_hcReadHeader_of_le (by simp [headerNeed])]
  exact if_neg h.not_gt

/-- Settles O18: the number of valid bytes decides, and `exec_rbPeekHeader_of_le`. -/
theorem rbPeekHeaderReadsTheStreamHeader : Obligations.RbPeekHeaderReadsTheStreamHeader := by
  intro skip s h
  refine ⟨fun hlt => ⟨_, exec_rbPeekHeader_of_lt (by omega), s.respond_onlyAnswered _ _⟩, fun hle => ?_⟩
  have hcount : skip.toNat + 7 ≤ s.count := by omega
  have hlen : h.length = 7 := by
    rw [← State.readRange_length s skip.toNat 7, State.readRange_eq_slice hcount]
  have hread := exec_hcReadHeader_of_le (stream := true) hlen.ge s
  exact ⟨_, (exec_rbPeekHeader_of_le hcount).trans hread, s.respond_onlyAnswered _ _, hread⟩

/-! ### Discarding (R170, R172) -/

/-- Settles O19: the two cases of `skipUntil_cases`, with what `findFrom` says of the valid bytes in each. -/
theorem rbSkipUntilDiscardsThroughTheMatch : Obligations.RbSkipUntilDiscardsThroughTheMatch := by
  intro offset value s
  have hmove : RingMove (.rbSkipUntil offset value) s (s.skipUntil offset.toNat value) := skipUntil_move rfl s _ _
  obtain ⟨hanswered, hsetting⟩ := hmove.answered .ok (.found (s.findFrom offset.toNat value).isSome)
  obtain ⟨hhead, hmem⟩ := hmove.head_mem.resolve_right (by simp)
  refine ⟨_, _, rfl, hanswered, hmem, hhead, hsetting, ?_⟩
  rcases s.skipUntil_cases offset.toNat value with ⟨p, hfound, -, -, hskip⟩ | ⟨hnone, hskip⟩
  · obtain ⟨hoffset, hcount, hvalue, hfirst⟩ := State.findFrom_some hfound
    rw [hskip, hfound]
    refine .inl ⟨rfl, p, hoffset, State.validBytes_getElem?_eq_some.mpr ⟨hcount, hvalue⟩,
      fun j hj hjp hmatch => ?_, rfl, rfl, s.consume_validBytes _⟩
    exact hfirst j hj hjp (State.validBytes_getElem?_eq_some.mp hmatch).2
  · rw [hskip, hnone]
    refine .inr ⟨rfl, fun j hj hmatch => ?_, rfl, rfl, rfl⟩
    obtain ⟨hcount, hvalue⟩ := State.validBytes_getElem?_eq_some.mp hmatch
    exact State.findFrom_none hnone j hj hcount hvalue

/-- Settles O20: the move is a `consume` of `min n COUNT` bytes. -/
theorem rbSkipDiscardsClamped : Obligations.RbSkipDiscardsClamped := by
  intro n s
  obtain ⟨hanswered, hsetting⟩ :=
    (RingMove.discard (i := .rbSkip n) _ rfl (Nat.min_le_right n.toNat s.count)).answered .ok .absent
  refine ⟨_, rfl, hanswered, rfl, rfl, ?_, rfl, rfl, hsetting⟩
  rw [State.respond_validBytes, State.consume_validBytes, ← s.validBytes_length, ← List.drop_eq_drop_min]

/-! ### Showing the cursors (R176) -/

/-- Settles O21: with `K < 32` the capacity, and so every cursor, fits 32 bits. -/
theorem rbStatShowsTheCursors : Obligations.RbStatShowsTheCursors := by
  intro s
  refine ⟨_, _, _, _, _, rfl, s.respond_onlyAnswered _ _, ?_⟩
  rintro ⟨⟨hhead, htail, hcount, -⟩, -⟩ hk
  have hcap : s.cap < 2 ^ 32 := Nat.pow_lt_pow_right Nat.one_lt_two hk
  exact ⟨toU32_toNat (hhead.trans hcap), toU32_toNat (htail.trans hcap), toU32_toNat (hcount.trans_lt hcap),
    toU32_toNat hcap⟩

/-! ### Appending (R160, R161) -/

/-- Settles O14: the move stores at `HEAD` the prefix that fits, which `append_validBytes` puts behind the valid bytes;
the addresses by the rules of `storeFrom`. -/
theorem rbWriteAppendsWhatFits : Obligations.RbWriteAppendsWhatFits := by
  intro src s hs n
  have hexec : exec (.rbWrite src) s =
      .next (((s.storeFrom s.head (src.take n)).produce n).respond .ok (.written (toU32 n))) := rfl
  have hn : n = min src.length (s.cap - s.count) := rfl
  have hlen : (src.take n).length = n := List.length_take_of_le (by omega)
  have hbytes := State.append_validBytes hs (bs := src.take n) (by omega)
  obtain ⟨hanswered, hsetting⟩ :=
    (RingMove.append (i := .rbWrite src) src n rfl hn).answered .ok (.written (toU32 n))
  refine ⟨_, _, hexec, hanswered, toU32_toNat, ?_, ?_, ?_, ?_, fun i hi => ?_, fun a ha => ?_, hsetting⟩
  · rwa [hlen] at hbytes
  · rw [State.respond_head, State.produce_head, State.storeFrom_wrap, State.storeFrom_head]; rfl
  · rw [State.respond_tail, State.produce_tail, State.storeFrom_tail]
  · rw [State.respond_count, State.produce_count, State.storeFrom_count]
  · have hread := State.read_storeFrom hs.2.1 s.head (src.take n) (by omega) i (by omega)
    rwa [← byteAt_eq_getElem, byteAt_take hi] at hread
  · exact State.read_storeFrom_of_ne hs.2.1 s.head (src.take n) a fun j hj => ha j (by omega)

/-! ### Reading back what was written (R174) -/

/-- Later responses stand in front of earlier ones, and their bytes come after. -/
theorem bytesRead_append (later earlier : List Delivery) :
    bytesRead (later ++ earlier) = bytesRead earlier ++ bytesRead later := by
  rw [bytesRead, List.reverse_append, List.flatMap_append]; rfl

theorem bytesRead_singleton_read (issuer : Nat) (st : Status) (data : Bytes) (w : U32) :
    bytesRead [{ issuer := issuer, response := { status := st, results := .read data w } }] = data :=
  List.append_nil data

/-- `RB_READ len, 0` delivers the bytes that it removes from the front of the ring. -/
theorem exec_rbRead_delivers_front (len : U32) (s : State) :
    ∃ t d, exec (.rbRead len 0) s = .next t ∧ t.delivered = d :: s.delivered ∧
      s.validBytes = bytesRead [d] ++ t.validBytes := by
  have hskip : (0 : U32).toNat = 0 := rfl
  by_cases h : s.deliverable len.toNat (0 : U32).toNat = 0
  · exact ⟨_, _, exec_rbRead_of_eq_zero h, rfl, rfl⟩
  · refine ⟨_, _, exec_rbRead_of_ne_zero h, rfl, ?_⟩
    rw [State.respond_validBytes, State.consume_validBytes, bytesRead_singleton_read, s.readRange_deliverable,
      hskip, Nat.zero_add, List.drop_zero, List.take_append_drop]

/-- A fitting `RB_WRITE` or an `RB_READ len, 0` is answered once and keeps the order of the bytes: what was there and
then what it offers are what it delivers and then what it leaves. -/
theorem exec_delivers_in_order {i : Instr} (hi : (∃ src, i = .rbWrite src) ∨ ∃ len, i = .rbRead len 0) {s : State}
    (hs : s.ringOk) (hfit : (offered i).length ≤ s.cap - s.count) :
    ∃ t d, exec i s = .next t ∧ t.delivered = d :: s.delivered ∧
      s.validBytes ++ offered i = bytesRead [d] ++ t.validBytes := by
  obtain ⟨src, rfl⟩ | ⟨len, rfl⟩ := hi
  · obtain ⟨t, w, e, ⟨hdelivered, -⟩, -, hbytes, -⟩ := rbWriteAppendsWhatFits src s hs
    have hall : min src.length (2 ^ s.cfg.k - s.count) = src.length := Nat.min_eq_left hfit
    rw [hall, List.take_length] at hbytes
    exact ⟨t, _, e, hdelivered, hbytes.symm⟩
  · obtain ⟨t, d, e, hdelivered, hbytes⟩ := exec_rbRead_delivers_front len s
    exact ⟨t, d, e, hdelivered, (List.append_nil _).trans hbytes⟩

/-- The part of O25 that holds whatever the ring held first, by induction on the commands: `exec_delivers_in_order` for
the first, whose bytes come before those of the rest. -/
theorem execAll_delivers_in_order {is : List Instr} {s : State} (hs : s.ringOk) (hfit : writesFit is s)
    (hkind : ∀ i ∈ is, (∃ src, i = .rbWrite src) ∨ ∃ len, i = .rbRead len 0) :
    ∃ t new, execAll is s = some t ∧ t.delivered = new ++ s.delivered ∧
      s.validBytes ++ is.flatMap offered = bytesRead new ++ t.validBytes := by
  induction is generalizing s with
  | nil => exact ⟨s, [], rfl, rfl, List.append_nil _⟩
  | cons i is ih =>
    obtain ⟨hfirst, hrest⟩ := hfit
    obtain ⟨hi, his⟩ := List.forall_mem_cons.mp hkind
    obtain ⟨u, d, e, hd, hearly⟩ := exec_delivers_in_order hi hs hfirst
    have hu : u.ringOk := by
      obtain ⟨v, ev, hinv, -⟩ := exec_keeps_invariant i hs
      obtain rfl : u = v := by simpa [e] using ev
      exact hinv.1
    obtain ⟨t, new, et, hnew, hlater⟩ := ih hu (hrest u e) his
    refine ⟨t, new ++ [d], (execAll_cons e).trans et, by rw [hnew, hd, List.append_cons], ?_⟩
    calc s.validBytes ++ (i :: is).flatMap offered
        = (s.validBytes ++ offered i) ++ is.flatMap offered := by rw [List.flatMap_cons, List.append_assoc]
      _ = bytesRead [d] ++ (u.validBytes ++ is.flatMap offered) := by rw [hearly, List.append_assoc]
      _ = bytesRead (new ++ [d]) ++ t.validBytes := by rw [hlater, bytesRead_append, List.append_assoc]

/-- Settles O25: by `execAll_delivers_in_order`; an empty ring has no bytes that come out before the written ones. -/
theorem readsReturnWhatWasWrittenInOrder : Obligations.ReadsReturnWhatWasWrittenInOrder := by
  intro is s hs hfit hkind
  obtain ⟨t, new, e, hnew, hbytes⟩ := execAll_delivers_in_order hs hfit hkind
  refine ⟨t, new, e, hnew, hbytes, fun hempty => ⟨t.validBytes, ?_⟩⟩
  have hnil : s.validBytes = [] := List.length_eq_zero_iff.mp (s.validBytes_length.trans hempty)
  rw [← hbytes, hnil, List.nil_append]

end Sys2Proof.Machine
end

-- ==== Proofs of the family 44_frame_ops: frames and datagrams there and back, and the stream receive step ====
section
/-! SUPPORT. The rules of `44_frame_ops.md`. A frame is built of parts, and each part is read back from it; what a
deserializer answers is a list of checks in the order of R246 and then the result of R210. `FR_POLL` is one move and one
response, both given by the pseudocode's outcome on the valid bytes (`exec_frPoll`), and its rules are rules about that
outcome (`PollCase`). -/

namespace Sys2Proof.Machine

open Sys2Proof.Spec

/-! ### What the serializers build (R200, R204) -/

section Serialize

variable {ck : Bytes → U16} {d : TxDesc} {payload : Bytes}

/-- The limit on a stream frame's `dataLength` is one on its body (R200). -/
theorem lt_encLen_add_three_iff (n : Nat) : 0xFFFF < encLen n + 3 ↔ 57340 < n := by
  rw [encLen]; omega

theorem reservedCompression_iff (d : TxDesc) : reservedCompression d = true ↔ 1 < d.compressionMode.toNat :=
  decide_eq_true_iff

theorem not_reservedCompression {d : TxDesc} (hmode : d.compressionMode.toNat ≤ 1) : ¬ reservedCompression d = true :=
  (reservedCompression_iff d).not.mpr hmode.not_gt

theorem serializeTcp_of_reserved (hmode : 1 < d.compressionMode.toNat) :
    serializeTcp ck d payload = .error .badOperand :=
  if_pos ((reservedCompression_iff d).mpr hmode)

theorem serializeTcp_of_tooLarge (hmode : d.compressionMode.toNat ≤ 1) (hlen : 57340 < (txBody d payload).length) :
    serializeTcp ck d payload = .error .frameTooLarge := by
  rw [serializeTcp, if_neg (not_reservedCompression hmode), if_pos ((lt_encLen_add_three_iff _).mpr hlen)]

/-- The stream serializer answers a frame exactly for a mode that is not reserved and a body of at most 57340 bytes. -/
theorem serializeTcp_eq_ok_iff {frame : Bytes} : serializeTcp ck d payload = .ok frame ↔
    d.compressionMode.toNat ≤ 1 ∧ (txBody d payload).length ≤ 57340 ∧
      streamFrame (ck (txBody d payload)) d (txBody d payload) = frame := by
  rw [serializeTcp, ← Nat.not_lt, ← reservedCompression_iff, ← Nat.not_lt (a := 57340), ← lt_encLen_add_three_iff]
  split_ifs <;> simp [*]

theorem serializeUdp_of_reserved (hmode : 1 < d.compressionMode.toNat) :
    serializeUdp d payload = .error .badOperand :=
  if_pos ((reservedCompression_iff d).mpr hmode)

theorem serializeUdp_of_tooLarge (hmode : d.compressionMode.toNat ≤ 1) (hlen : 0xFFFF < (txBody d payload).length) :
    serializeUdp d payload = .error .frameTooLarge := by
  rw [serializeUdp, if_neg (not_reservedCompression hmode), if_pos hlen]

theorem serializeUdp_of_fits (hmode : d.compressionMode.toNat ≤ 1) (hlen : (txBody d payload).length ≤ 0xFFFF) :
    serializeUdp d payload = .ok (fixedHeader (flagsOf d) (BitVec.ofNat 16 (txBody d payload).length)
      d.commandOrResponseId ++ txBody d payload) := by
  rw [serializeUdp, if_neg (not_reservedCompression hmode), if_neg hlen.not_gt]

end Serialize

theorem exec_frSerializeTcp_of_ok {d : TxDesc} {payload frame : Bytes} {s : State}
    (h : serializeTcp s.checksum d payload = .ok frame) : exec (.frSerializeTcp d payload) s =
      .next (s.respond .ok (.built frame (toU32 frame.length))) := by
  rw [exec, execFrSerializeTcp, h]; rfl

theorem exec_frSerializeTcp_of_error {d : TxDesc} {payload : Bytes} {s : State} {st : Status}
    (h : serializeTcp s.checksum d payload = .error st) :
    exec (.frSerializeTcp d payload) s = .next (s.respond st .absent) := by
  rw [exec, execFrSerializeTcp, h]; rfl

theorem exec_frSerializeUdp_of_ok {d : TxDesc} {payload dgram : Bytes} (h : serializeUdp d payload = .ok dgram)
    (s : State) : exec (.frSerializeUdp d payload) s =
      .next (s.respond .ok (.built dgram (toU32 dgram.length))) := by
  rw [exec, execFrSerializeUdp, h]; rfl

theorem exec_frSerializeUdp_of_error {d : TxDesc} {payload : Bytes} {st : Status}
    (h : serializeUdp d payload = .error st) (s : State) :
    exec (.frSerializeUdp d payload) s = .next (s.respond st .absent) := by
  rw [exec, execFrSerializeUdp, h]; rfl

theorem exec_frDeserializeTcp_of_ok {frame : Bytes} {s : State} {r : RxResult}
    (h : deserializeTcp s.checksum frame = .ok r) :
    exec (.frDeserializeTcp frame) s = .next (s.respond .ok (.rx r)) := by
  rw [exec, execFrDeserializeTcp, h]; rfl

theorem exec_frDeserializeUdp_of_ok {dgram : Bytes} {r : RxResult} (h : deserializeUdp dgram = .ok r) (s : State) :
    exec (.frDeserializeUdp dgram) s = .next (s.respond .ok (.rx r)) := by
  rw [exec, execFrDeserializeUdp, h]; rfl

/-! ### The parts of a stream frame (R66) -/

theorem streamFrame_length (cs : U16) (d : TxDesc) (body : Bytes) :
    (streamFrame cs d body).length = encLen body.length + 8 := by
  simp only [streamFrame, List.length_append, fixedHeader_length, le16_length, payloadEncode_length,
    List.length_singleton]
  omega

/-- A stream frame as its fixed header and what follows. -/
theorem streamFrame_eq (cs : U16) (d : TxDesc) (body : Bytes) : streamFrame cs d body =
    fixedHeader (flagsOf d) (BitVec.ofNat 16 (encLen body.length + 3)) d.commandOrResponseId
      ++ (le16 cs ++ (payloadEncode body ++ [0x00])) := by
  simp only [streamFrame, List.append_assoc]

theorem byteAt_streamFrame (cs : U16) (d : TxDesc) (body : Bytes) : byteAt (streamFrame cs d body) 0 = flagsOf d := by
  rw [streamFrame_eq, byteAt_fixedHeader]

theorem wireId_streamFrame (cs : U16) (d : TxDesc) (body : Bytes) :
    wireId (streamFrame cs d body) = d.commandOrResponseId := by
  rw [streamFrame_eq, wireId_fixedHeader]

theorem wireChecksum_streamFrame (cs : U16) (d : TxDesc) (body : Bytes) :
    wireChecksum (streamFrame cs d body) = cs := by
  rw [streamFrame_eq]
  exact (rd16_append_right (fixedHeader _ _ _) _ 0).trans (rd16_le16 cs _)

/-- The `dataLength` of a frame whose body is within the limit. -/
theorem wireDataLength_streamFrame {cs : U16} {d : TxDesc} {body : Bytes} (hlen : body.length ≤ 57340) :
    (wireDataLength (streamFrame cs d body)).toNat = encLen body.length + 3 := by
  have hmax := (lt_encLen_add_three_iff body.length).not.mpr hlen.not_gt
  rw [streamFrame_eq, wireDataLength_fixedHeader, BitVec.toNat_ofNat, Nat.mod_eq_of_lt (by omega)]

/-- The encoded body stands between the checksum and the terminator. -/
theorem slice_streamFrame (cs : U16) (d : TxDesc) (body : Bytes) :
    slice (streamFrame cs d body) 7 (encLen body.length + 7) = payloadEncode body := by
  have hdrop : (streamFrame cs d body).drop 7 = payloadEncode body ++ [0x00] := by rw [streamFrame_eq]; rfl
  rw [slice, List.drop_take, hdrop, Nat.add_sub_cancel, ← payloadEncode_length, List.take_left]

theorem terminator_streamFrame (cs : U16) (d : TxDesc) (body : Bytes) :
    byteAt (streamFrame cs d body) (encLen body.length + 7) = 0x00 := by
  have hbefore : (fixedHeader (flagsOf d) (BitVec.ofNat 16 (encLen body.length + 3)) d.commandOrResponseId
      ++ le16 cs ++ payloadEncode body).length = encLen body.length + 7 := by
    simp only [List.length_append, fixedHeader_length, le16_length, payloadEncode_length]
    omega
  rw [streamFrame, ← hbefore]
  exact byteAt_append_right _ [0x00] 0

/-- The deserializer finds in a stream frame the body that was framed. -/
theorem deserializeTcp_streamFrame (ck : Bytes → U16) (d : TxDesc) {body : Bytes} (hlen : body.length ≤ 57340) :
    deserializeTcp ck (streamFrame (ck body) d body) = buildResult (flagsOf d)
      (wireDataLength (streamFrame (ck body) d body)) d.commandOrResponseId (ck body) body := by
  have hdl := wireDataLength_streamFrame (cs := ck body) (d := d) hlen
  have hend : 4 + (encLen body.length + 3) = encLen body.length + 7 := by omega
  have hgood : ¬ badEncodedLength (payloadEncode body) = true := fun h =>
    payloadEncode_length_mod_ne_one body (beq_iff_eq.mp h)
  rw [deserializeTcp, deserializeBody, hdl, hend, streamFrame_length, terminator_streamFrame, slice_streamFrame,
    payloadDecode_payloadEncode, wireChecksum_streamFrame, byteAt_streamFrame, wireId_streamFrame,
    if_neg (by omega), if_neg (by omega), if_neg (by omega), if_neg (by simp), if_neg hgood, if_neg (by simp)]

/-- The deserializer finds in a datagram the body that was sent. -/
theorem deserializeUdp_fixedHeader (f : Byte) (id : U16) {body : Bytes} (hlen : body.length ≤ 0xFFFF) :
    deserializeUdp (fixedHeader f (BitVec.ofNat 16 body.length) id ++ body) =
      buildResult f (BitVec.ofNat 16 body.length) id 0 body := by
  have hdl : (BitVec.ofNat 16 body.length).toNat = body.length := by
    rw [BitVec.toNat_ofNat, Nat.mod_eq_of_lt (by omega)]
  rw [deserializeUdp, wireDataLength_fixedHeader, wireId_fixedHeader, byteAt_fixedHeader, drop_fixedHeader, hdl,
    List.length_append, fixedHeader_length, if_neg (by omega), if_neg (by omega)]

/-! ### The result of a descriptor's body (R140, R141, R144, R210) -/

/-- The bounds of R141 are the sender's condition on the descriptor. -/
theorem chunkInBounds_of_chunkFits {d : TxDesc} {n : Nat} (hfits : chunkFits d n) :
    (d.isChunked && !chunkInBounds (optionalOf d).chunkOffset (optionalOf d).totalCompressedLength n) = false := by
  cases hchunked : d.isChunked with
  | false => rfl
  | true =>
    obtain ⟨hoffset, htotal, hend⟩ := hfits hchunked
    simp [chunkInBounds, optionalOf, hchunked, hoffset, htotal, hend]

/-- The body of a descriptor with fitting chunk fields gives its optional fields and its payload. -/
theorem buildResult_txBody {d : TxDesc} {payload : Bytes} (hfits : chunkFits d payload.length) (dl id cs : U16) :
    buildResult (flagsOf d) dl id cs (txBody d payload) =
      .ok (rxResult (flagsOf d) dl id cs (optionalOf d) payload) := by
  have hdrop : (txBody d payload).drop (optSize (flagsOf d)) = payload := by
    rw [txBody, ← optFields_length d (flagsOf d), List.drop_left]
  have hsize : optSize (flagsOf d) ≤ (txBody d payload).length := by
    rw [txBody, List.length_append, optFields_length]
    exact Nat.le_add_right _ _
  have hread : readOptional (flagsOf d) (txBody d payload) = optionalOf d := readOptional_optFields d payload
  rw [buildResult, if_neg hsize.not_gt]
  simp only [hdrop, hread, isChunkedFlag_flagsOf]
  exact if_neg (by rw [chunkInBounds_of_chunkFits hfits]; exact Bool.false_ne_true)

/-- The result built from the descriptor's own header byte and fields carries the descriptor (R144). -/
theorem carries_rxResult (d : TxDesc) (payload : Bytes) (dl cs : U16) :
    carries (rxResult (flagsOf d) dl d.commandOrResponseId cs (optionalOf d) payload) d payload := by
  obtain ⟨-, hchunked, hrequest, hresponse, hcompression, hencryption⟩ := headerByteFields d
  exact ⟨rfl, rfl, hchunked, hrequest, hresponse, hcompression, hencryption, rfl, rfl, rfl, rfl, rfl, rfl⟩

/-- A stream frame of a descriptor with fitting chunk fields deserializes to it (R200, R214). -/
theorem deserializeTcp_of_serializeTcp {ck : Bytes → U16} {d : TxDesc} {payload frame : Bytes}
    (hser : serializeTcp ck d payload = .ok frame) (hfits : chunkFits d payload.length) :
    ∃ r, deserializeTcp ck frame = .ok r ∧ carries r d payload ∧ r.checksum = ck (txBody d payload) := by
  obtain ⟨-, hlen, rfl⟩ := serializeTcp_eq_ok_iff.mp hser
  exact ⟨_, (deserializeTcp_streamFrame ck d hlen).trans (buildResult_txBody hfits _ _ _),
    carries_rxResult d payload _ _, rfl⟩

/-- Settles O48: by `deserializeTcp_of_serializeTcp`. -/
theorem streamFrameRoundTrip : Obligations.StreamFrameRoundTrip := by
  intro d payload s hmode hlen hfits
  have hser : serializeTcp s.checksum d payload = .ok _ := serializeTcp_eq_ok_iff.mpr ⟨hmode, hlen, rfl⟩
  obtain ⟨r, hdes, hcarries, hck⟩ := deserializeTcp_of_serializeTcp hser hfits
  exact ⟨_, _, _, _, r, exec_frSerializeTcp_of_ok hser, s.respond_onlyAnswered _ _, exec_frDeserializeTcp_of_ok hdes,
    s.respond_onlyAnswered _ _, hcarries, hck⟩

/-- Settles O49: the header gives back the descriptor's fixed fields, the body the others and the payload. -/
theorem datagramRoundTrip : Obligations.DatagramRoundTrip := by
  intro d payload s hmode hlen hfits
  have hser := serializeUdp_of_fits (payload := payload) hmode hlen
  have hdes := (deserializeUdp_fixedHeader (flagsOf d) d.commandOrResponseId hlen).trans
    (buildResult_txBody hfits _ _ _)
  exact ⟨_, _, _, _, _, exec_frSerializeUdp_of_ok hser s, s.respond_onlyAnswered _ _,
    exec_frDeserializeUdp_of_ok hdes s, s.respond_onlyAnswered _ _, carries_rxResult d payload _ _, rfl⟩

/-! ### What the serializers answer -/

/-- Settles O44: by the compression mode and the length of the body; the bytes are those of `streamFrame`. -/
theorem frSerializeTcpAnswers : Obligations.FrSerializeTcpAnswers := by
  intro d payload s body e
  refine ⟨fun hmode => ⟨_, exec_frSerializeTcp_of_error (serializeTcp_of_reserved hmode), s.respond_onlyAnswered _ _⟩,
    fun hmode hlen => ⟨_, exec_frSerializeTcp_of_error (serializeTcp_of_tooLarge hmode hlen),
      s.respond_onlyAnswered _ _⟩, fun hmode hlen => ?_⟩
  have hser : serializeTcp s.checksum d payload = .ok (streamFrame (s.checksum body) d body) :=
    serializeTcp_eq_ok_iff.mpr ⟨hmode, hlen, rfl⟩
  have hflen : (streamFrame (s.checksum body) d body).length = e + 8 := streamFrame_length _ d body
  refine ⟨_, _, _, exec_frSerializeTcp_of_ok hser, s.respond_onlyAnswered _ _, toU32_toNat (by omega), hflen,
    wireDataLength_streamFrame hlen, ?_⟩
  rw [streamFrame, payloadEncode_eq_encodeByGroups]
  rfl

/-- Settles O45: by the compression mode and the length of the body; the frame begins with `writeHeader`. -/
theorem frSerializeUdpAnswers : Obligations.FrSerializeUdpAnswers := by
  intro d payload s body
  refine ⟨fun hmode => ⟨_, exec_frSerializeUdp_of_error (serializeUdp_of_reserved hmode) s, s.respond_onlyAnswered _ _⟩,
    fun hmode hlen => ⟨_, exec_frSerializeUdp_of_error (serializeUdp_of_tooLarge hmode hlen) s,
      s.respond_onlyAnswered _ _⟩, fun hmode hlen => ?_⟩
  have hser := serializeUdp_of_fits (payload := payload) hmode hlen
  have hflen : (fixedHeader (flagsOf d) (BitVec.ofNat 16 body.length) d.commandOrResponseId ++ body).length =
      5 + body.length := List.length_append
  refine ⟨_, _, _, _, _, _, exec_frSerializeUdp_of_ok hser s, s.respond_onlyAnswered _ _, toU32_toNat ?_, ?_, hflen,
    exec_hcWriteHeader_of_le hmode _ s, s.respond_onlyAnswered _ _, (List.append_assoc _ _ _).symm⟩
  · exact lt_of_eq_of_lt hflen (by omega)
  · have hdl := wireDataLength_fixedHeader (flagsOf d) (BitVec.ofNat 16 body.length) d.commandOrResponseId body
    exact (congrArg BitVec.toNat hdl).trans (Nat.mod_eq_of_lt (by omega))

/-! ### What the deserializers answer: the checks in order (R246) -/

/-- The status of the first check that fails, or the result `x`. -/
def checked (checks : List (Bool × Status)) (x : RxResult) : Except Status RxResult :=
  match firstFailing checks with
  | some st => .error st
  | none => .ok x

@[simp] theorem checked_nil (x : RxResult) : checked [] x = .ok x := rfl

@[simp] theorem checked_cons (c : Bool) (st : Status) (rest : List (Bool × Status)) (x : RxResult) :
    checked ((c, st) :: rest) x = if c then .error st else checked rest x := by
  cases c <;> rfl

/-- The bounds check of `buildResult` is the one of the pseudocode. -/
theorem chunkFails_eq (f : Byte) (body : Bytes) : chunkFails f body = (isChunkedFlag f &&
    !chunkInBounds (readOptional f body).chunkOffset (readOptional f body).totalCompressedLength
      (body.drop (optSize f)).length) := by
  rw [readOptional_eq_parseOptional, List.length_drop]
  simp only [chunkFails, chunkInBounds, Bool.decide_and, Bool.and_assoc]
  rfl

/-- The model's result is the one that R210 builds: a field of the header byte is a digit of its value. -/
theorem rxResult_eq_resultOf (f : Byte) (dl id cs : U16) (body : Bytes) :
    rxResult f dl id cs (readOptional f body) (body.drop (optSize f)) = resultOf f dl id cs body := by
  have hcompression : compressionModeField f = BitVec.ofNat 2 (f.toNat / 8) := by
    rw [compressionModeField, BitVec.extractLsb', Nat.shiftRight_eq_div_pow]
  have hencryption : encryptionModeField f = BitVec.ofNat 3 f.toNat := by
    rw [encryptionModeField, BitVec.extractLsb', Nat.shiftRight_zero]
  rw [rxResult, hcompression, hencryption, readOptional_eq_parseOptional]
  rfl

theorem buildResult_eq_checked (f : Byte) (dl id cs : U16) (body : Bytes) : buildResult f dl id cs body =
    checked [(decide (body.length < optSize f), .malformedBody), (chunkFails f body, .chunkBounds)]
      (resultOf f dl id cs body) := by
  simp only [buildResult, checked_cons, checked_nil, decide_eq_true_eq, chunkFails_eq, rxResult_eq_resultOf]

/-- A deserializer's answer: the first failing check's status without a result, or `OK` with the result. -/
theorem State.respondRx_checked (s : State) (checks : List (Bool × Status)) (x : RxResult) :
    match firstFailing checks with
    | some st => s.onlyAnswered (s.respondRx (checked checks x)) st .absent
    | none => s.onlyAnswered (s.respondRx (checked checks x)) .ok (.rx x) := by
  rw [checked]
  split <;> exact s.respond_onlyAnswered _ _

/-- Settles O46: the branches of the deserializer are the list of checks. -/
theorem frDeserializeTcpAnswers : Obligations.FrDeserializeTcpAnswers := by
  intro frame s dl enc body
  have hbody : payloadDecode (slice frame 7 (4 + (wireDataLength frame).toNat)) = body :=
    payloadDecode_eq_decodeByGroups enc
  have hdes : deserializeTcp s.checksum frame = checked
      [(decide (frame.length < 7), .malformedHeader), (decide (dl < 3), .malformedHeader),
        (decide (frame.length ≠ 5 + dl), .framingDesync), (byteAt frame (4 + dl) != 0x00, .framingDesync),
        (enc.length % 8 == 1, .decodeLength), (checksumFn s.cfg.checksum body != rd16 frame 5, .checksumMismatch),
        (decide (body.length < optSize (byteAt frame 0)), .malformedBody),
        (chunkFails (byteAt frame 0) body, .chunkBounds)]
      (resultOf (byteAt frame 0) (rd16 frame 1) (rd16 frame 3) (rd16 frame 5) body) := by
    simp only [deserializeTcp, deserializeBody, hbody, buildResult_eq_checked, checked_cons, decide_eq_true_eq,
      bne_iff_ne]
    rfl
  refine ⟨_, rfl, ?_⟩
  rw [hdes]
  exact s.respondRx_checked _ _

/-- Settles O47: the branches of the deserializer are the list of checks. -/
theorem frDeserializeUdpAnswers : Obligations.FrDeserializeUdpAnswers := by
  intro dgram s dl body
  have hdes : deserializeUdp dgram = checked
      [(decide (dgram.length < 5), .dgramLengthMismatch), (decide (dgram.length ≠ 5 + dl), .dgramLengthMismatch),
        (decide (body.length < optSize (byteAt dgram 0)), .malformedBody),
        (chunkFails (byteAt dgram 0) body, .chunkBounds)]
      (resultOf (byteAt dgram 0) (rd16 dgram 1) (rd16 dgram 3) 0 body) := by
    simp only [deserializeUdp, buildResult_eq_checked, checked_cons, decide_eq_true_eq]
    rfl
  refine ⟨_, rfl, ?_⟩
  rw [hdes]
  exact s.respondRx_checked _ _


/-! ### Consuming nothing, everything, and through a match (R41, R170) -/

/-- Consuming no byte changes nothing: `TAIL` is an index already. -/
theorem State.consume_zero {s : State} (h : s.tail < s.cap) : s.consume 0 = s := by
  rw [State.consume, Nat.add_zero, State.wrap_of_lt h, Nat.sub_zero]

/-- Discarding everything is consuming `COUNT` bytes: `TAIL` then meets `HEAD` (R25). -/
theorem State.discardAll_eq_consume {s : State} (h : s.cursorsOk) : s.discardAll = s.consume s.count := by
  obtain ⟨-, -, -, hhead⟩ := h
  rw [State.consume, ← hhead, Nat.sub_self, State.discardAll]

theorem State.readRange_succ (s : State) (start n : Nat) :
    s.readRange start (n + 1) = s.memRead (s.tail + start) :: s.readRange (start + 1) n := by
  simp only [State.readRange, List.range_succ_eq_map, List.map_cons, List.map_map, Nat.add_zero]
  refine congrArg _ (List.map_congr_left fun i _ => ?_)
  simp only [Function.comp_apply, Nat.succ_eq_add_one]
  congr 1
  omega

theorem State.scan_eq_findIdx? (s : State) (v : Byte) (fuel i : Nat) :
    s.scan v fuel i = ((s.readRange i fuel).findIdx? (· == v)).map (i + ·) := by
  induction fuel generalizing i with
  | zero => rfl
  | succ fuel ih =>
    rw [State.scan, State.readRange_succ, List.findIdx?_cons, ih]
    by_cases hv : s.memRead (s.tail + i) = v
    · simp [hv]
    · simp [hv, Function.comp_def, Nat.add_assoc, Nat.add_comm 1]

/-- What `SkipUntil` searches are the valid bytes from `offset` on. -/
theorem State.findFrom_eq_findIdx? (s : State) (offset : Nat) (v : Byte) :
    s.findFrom offset v = ((s.validBytes.drop offset).findIdx? (· == v)).map (offset + ·) := by
  have hrange : s.readRange offset (s.count - offset) = s.validBytes.drop offset := by
    rcases Nat.le_total offset s.count with hle | hge
    · rw [State.readRange_eq_slice (by omega), List.take_of_length_le (by simp)]
    · rw [Nat.sub_eq_zero_of_le hge, List.drop_eq_nil_of_le (by simpa using hge)]
      rfl
  rw [State.findFrom, State.scan_eq_findIdx?, hrange]

/-- `SkipUntil` consumes what the pseudocode says that it discards. -/
theorem State.skipUntil_eq_consume {s : State} (h : s.cursorsOk) (offset : Nat) (v : Byte) :
    s.skipUntil offset v = s.consume (skipCount s.validBytes offset v) := by
  rw [State.skipUntil, State.findFrom_eq_findIdx?, skipCount]
  cases (s.validBytes.drop offset).findIdx? (· == v) with
  | some i => rfl
  | none => exact (State.discardAll_eq_consume h).trans (by rw [s.validBytes_length])

theorem skipCount_le (q : Bytes) (offset : Nat) (v : Byte) : skipCount q offset v ≤ q.length := by
  rw [skipCount]
  split
  · next i hi =>
    obtain ⟨hlt, -⟩ := List.findIdx?_eq_some_iff_findIdx_eq.mp hi
    rw [List.length_drop] at hlt
    omega
  · exact Nat.le_refl _

/-- The byte at `offset` is among the discarded ones. -/
theorem lt_skipCount {q : Bytes} {offset : Nat} (h : offset < q.length) (v : Byte) : offset < skipCount q offset v := by
  rw [skipCount]
  split
  · omega
  · exact h

/-! ### `FR_POLL` is the pseudocode's step (R224) -/

/-- The pseudocode's outcome on the ring's contents. -/
def State.polled (s : State) : Status × Nat × Option RxResult := pollOutcome s.cap s.checksum s.validBytes

/-- The bytes that the outcome `p` counts are consumed, and `p` is the response. -/
def State.answerPoll (s : State) (p : Status × Nat × Option RxResult) : State :=
  (s.consume p.2.1).respond p.1 (.poll (toU32 p.2.1) p.2.2)

theorem State.answerPoll_answered (s : State) (p : Status × Nat × Option RxResult) :
    s.answered (s.answerPoll p) p.1 (.poll (toU32 p.2.1) p.2.2) ∧ s.sameSetting (s.answerPoll p) :=
  ⟨⟨rfl, rfl⟩, rfl, rfl, rfl, rfl, rfl, rfl⟩

theorem State.answerPoll_validBytes (s : State) (p : Status × Nat × Option RxResult) :
    (s.answerPoll p).validBytes = s.validBytes.drop p.2.1 := s.consume_validBytes p.2.1

@[simp] theorem State.answerPoll_count (s : State) (p : Status × Nat × Option RxResult) :
    (s.answerPoll p).count = s.count - p.2.1 := rfl

theorem State.answerPoll_needMore {s : State} (h : s.tail < s.cap) :
    s.answerPoll (.needMore, 0, none) = s.respond .needMore (.poll 0 none) := by
  rw [State.answerPoll, State.consume_zero h]
  rfl

/-- A resynchronisation answers how much `SkipUntil` discards. -/
theorem State.resync_eq_answerPoll {s : State} (h : s.cursorsOk) (offset : Nat) (st : Status) :
    s.resync offset st = s.answerPoll (st, skipCount s.validBytes offset 0x00, none) := by
  have hle : skipCount s.validBytes offset 0x00 ≤ s.count := s.validBytes_length ▸ skipCount_le _ _ _
  rw [State.resync, State.skipUntil_eq_consume h, State.answerPoll, State.consume_count, Nat.sub_sub_self hle]

/-- `FR_POLL` makes one move and gives one response, those of the pseudocode's outcome on the valid bytes. -/
theorem exec_frPoll {s : State} (h : s.cursorsOk) : exec .frPoll s = .next (s.answerPoll s.polled) := by
  have hneed := State.answerPoll_needMore h.2.1
  rw [exec, execFrPoll, State.polled, pollOutcome, State.validBytes_length]
  by_cases h7 : s.count < 7
  · rw [if_pos h7, if_pos h7, hneed]
  have hdl : wireDataLength (s.readRange 0 7) = rd16 s.validBytes 1 := by
    rw [State.readRange_eq_slice (by omega)]
    exact rd16_take (by decide)
  rw [if_neg h7, if_neg h7, hdl]
  generalize (rd16 s.validBytes 1).toNat = dl
  by_cases h3 : dl < 3
  · simp only [if_pos h3, State.resync_eq_answerPoll h]
  by_cases hcap : s.cap < 5 + dl
  · simp only [if_neg h3, if_pos hcap, State.resync_eq_answerPoll h]
  by_cases hall : s.count < 5 + dl
  · simp only [if_neg h3, if_neg hcap, if_pos hall, hneed]
  have hend : s.memRead (s.tail + (5 + dl - 1)) = byteAt s.validBytes (4 + dl) := by
    rw [State.byteAt_validBytes (by omega)]
    congr 2
    omega
  have hframe : s.readRange 0 (5 + dl) = s.validBytes.take (5 + dl) := State.readRange_eq_slice (by omega)
  simp only [if_neg h3, if_neg hcap, if_neg hall, hend, hframe]
  by_cases hterm : byteAt s.validBytes (4 + dl) ≠ 0x00
  · rw [if_pos hterm, if_pos hterm, State.resync_eq_answerPoll h, show 5 + dl - 1 = 4 + dl by omega]
  · rw [if_neg hterm, if_neg hterm]
    cases deserializeTcp s.checksum (s.validBytes.take (5 + dl)) <;> rfl

/-! ### What the outcome can be -/

/-- After the checks of the header and of the framing, the statuses of R214 that are left. -/
def afterFraming : List Status := [.decodeLength, .checksumMismatch, .malformedBody, .chunkBounds]

theorem deserializeBody_error {ck : Bytes → U16} {frame : Bytes} {st : Status}
    (h : deserializeBody ck frame = .error st) : st ∈ afterFraming := by
  simp only [deserializeBody, buildResult] at h
  split_ifs at h <;> cases h <;> decide

/-- A frame that `FR_POLL` has taken from the ring passes the checks of the header and of the framing. -/
theorem deserializeTcp_of_framed {ck : Bytes → U16} {frame : Bytes} (h3 : 3 ≤ (wireDataLength frame).toNat)
    (hlen : frame.length = 5 + (wireDataLength frame).toNat)
    (hend : byteAt frame (4 + (wireDataLength frame).toNat) = 0x00) :
    deserializeTcp ck frame = deserializeBody ck frame := by
  rw [deserializeTcp, if_neg (by omega), if_neg (by omega), if_neg (by omega), if_neg (by simp [hend])]

/-- Everything an outcome of `FR_POLL` on the contents `q` can be (R224): not enough bytes; a claim that is too short or
too long, and no terminator where one is claimed, with a resynchronisation; or a frame that is consumed. -/
inductive PollCase (cap : Nat) (q : Bytes) : Status × Nat × Option RxResult → Prop
  | needMore (h : q.length < 7 ∨ q.length < 5 + (rd16 q 1).toNat) : PollCase cap q (.needMore, 0, none)
  | malformedHeader (h7 : 7 ≤ q.length) (h3 : (rd16 q 1).toNat < 3) :
    PollCase cap q (.malformedHeader, skipCount q 0 0x00, none)
  | frameTooLarge (h7 : 7 ≤ q.length) (hcap : cap < 5 + (rd16 q 1).toNat) :
    PollCase cap q (.frameTooLarge, skipCount q 0 0x00, none)
  | framingDesync (h3 : 3 ≤ (rd16 q 1).toNat) (hlen : 5 + (rd16 q 1).toNat ≤ q.length)
    (hend : byteAt q (4 + (rd16 q 1).toNat) ≠ 0x00) :
    PollCase cap q (.framingDesync, skipCount q (4 + (rd16 q 1).toNat) 0x00, none)
  | frame (h3 : 3 ≤ (rd16 q 1).toNat) (hlen : 5 + (rd16 q 1).toNat ≤ q.length) (st : Status) (r : Option RxResult)
    (hst : st = .ok ∨ st ∈ afterFraming) : PollCase cap q (st, 5 + (rd16 q 1).toNat, r)

theorem pollOutcome_cases (cap : Nat) (ck : Bytes → U16) (q : Bytes) : PollCase cap q (pollOutcome cap ck q) := by
  simp only [pollOutcome]
  split_ifs with h7 h3 hcap hall hend
  · exact .needMore (.inl h7)
  · exact .malformedHeader (by omega) h3
  · exact .frameTooLarge (by omega) hcap
  · exact .needMore (.inr hall)
  · exact .framingDesync (by omega) (by omega) hend
  · have hdl : wireDataLength (q.take (5 + (rd16 q 1).toNat)) = rd16 q 1 := rd16_take (by omega)
    have hbody : deserializeTcp ck (q.take (5 + (rd16 q 1).toNat)) =
        deserializeBody ck (q.take (5 + (rd16 q 1).toNat)) := by
      refine deserializeTcp_of_framed ?_ ?_ ?_ <;> rw [hdl]
      · omega
      · rw [List.length_take]; omega
      · rw [byteAt_take (by omega)]; exact not_not.mp hend
    rw [hbody]
    split
    · exact .frame (by omega) (by omega) _ _ (.inl rfl)
    · next st hst => exact .frame (by omega) (by omega) _ _ (.inr (deserializeBody_error hst))

namespace PollCase

variable {cap : Nat} {q : Bytes} {p : Status × Nat × Option RxResult} (h : PollCase cap q p)
include h

theorem consumed_le : p.2.1 ≤ q.length := by
  cases h with
  | needMore _ => exact Nat.zero_le _
  | malformedHeader _ _ => exact skipCount_le _ _ _
  | frameTooLarge _ _ => exact skipCount_le _ _ _
  | framingDesync _ _ _ => exact skipCount_le _ _ _
  | frame _ hlen _ _ _ => exact hlen

theorem eq_of_needMore (hst : p.1 = .needMore) :
    p = (.needMore, 0, none) ∧ (q.length < 7 ∨ q.length < 5 + (rd16 q 1).toNat) := by
  cases h with
  | needMore hq => exact ⟨rfl, hq⟩
  | malformedHeader _ _ => cases hst
  | frameTooLarge _ _ => cases hst
  | framingDesync _ _ _ => cases hst
  | frame _ _ st r hafter =>
    obtain rfl : st = .needMore := hst
    exact absurd hafter (by decide)

theorem consumed_pos (hst : p.1 ≠ .needMore) : 0 < p.2.1 := by
  cases h with
  | needMore _ => exact absurd rfl hst
  | malformedHeader h7 _ => exact lt_skipCount (by omega) _
  | frameTooLarge h7 _ => exact lt_skipCount (by omega) _
  | framingDesync _ hlen _ => exact (Nat.zero_le _).trans_lt (lt_skipCount (by omega) _)
  | frame _ _ _ _ _ => show 0 < 5 + _; omega

/-- But for a short or a long claim, at least the claimed frame is consumed, which is at least 8 bytes. -/
theorem total_le_consumed (hst : p.1 ≠ .needMore) (hmal : p.1 ≠ .malformedHeader) (hlarge : p.1 ≠ .frameTooLarge) :
    8 ≤ 5 + (rd16 q 1).toNat ∧ 5 + (rd16 q 1).toNat ≤ p.2.1 := by
  cases h with
  | needMore _ => exact absurd rfl hst
  | malformedHeader _ _ => exact absurd rfl hmal
  | frameTooLarge _ _ => exact absurd rfl hlarge
  | framingDesync h3 hlen _ =>
    have hskip := lt_skipCount (q := q) (offset := 4 + (rd16 q 1).toNat) (by omega) 0x00
    exact ⟨by omega, show _ ≤ skipCount _ _ _ by omega⟩
  | frame h3 _ _ _ _ => exact ⟨by omega, Nat.le_refl _⟩

theorem lt_three_of_malformedHeader (hst : p.1 = .malformedHeader) : (rd16 q 1).toNat < 3 := by
  cases h with
  | needMore _ => cases hst
  | malformedHeader _ h3 => exact h3
  | frameTooLarge _ _ => cases hst
  | framingDesync _ _ _ => cases hst
  | frame _ _ st r hafter =>
    obtain rfl : st = .malformedHeader := hst
    exact absurd hafter (by decide)

theorem ne_zero_of_framingDesync (hst : p.1 = .framingDesync) : byteAt q (4 + (rd16 q 1).toNat) ≠ 0x00 := by
  cases h with
  | needMore _ => cases hst
  | malformedHeader _ _ => cases hst
  | frameTooLarge _ _ => cases hst
  | framingDesync _ _ hend => exact hend
  | frame _ _ st r hafter =>
    obtain rfl : st = .framingDesync := hst
    exact absurd hafter (by decide)

end PollCase

theorem State.polled_cases (s : State) : PollCase s.cap s.validBytes s.polled := pollOutcome_cases _ _ _

/-- Settles O50: by `exec_frPoll`, and the cases of the outcome. -/
theorem frPollActsOnTheContents : Obligations.FrPollActsOnTheContents := by
  intro s hs p
  have hcases : PollCase s.cap s.validBytes p := s.polled_cases
  obtain ⟨hanswered, hsetting⟩ := s.answerPoll_answered p
  exact ⟨_, _, exec_frPoll hs.1, hanswered, toU32_toNat, s.answerPoll_validBytes p, rfl, rfl, rfl, rfl, hsetting,
    hcases.lt_three_of_malformedHeader, hcases.ne_zero_of_framingDesync⟩

/-! ### Progress (R228, R231) -/

theorem State.answerPoll_ringOk {s : State} (hs : s.ringOk) : (s.answerPoll s.polled).ringOk := by
  obtain ⟨t, e, hinv, -⟩ := exec_keeps_invariant .frPoll hs
  obtain rfl : s.answerPoll s.polled = t := by simpa [exec_frPoll hs.1] using e
  exact hinv.1

/-- A poll that answers NEED_MORE leaves a ring that answers NEED_MORE again. -/
theorem State.polled_answerPoll_needMore {s : State} (h : s.polled.1 = .needMore) :
    (s.answerPoll s.polled).polled.1 = .needMore := by
  obtain ⟨hp, -⟩ := s.polled_cases.eq_of_needMore h
  have hbytes : (s.answerPoll s.polled).validBytes = s.validBytes := by
    rw [State.answerPoll_validBytes, hp, List.drop_zero]
  exact (congrArg (fun q => (pollOutcome s.cap s.checksum q).1) hbytes).trans h

/-- `n + 1` polls end in NEED_MORE where the first already answers it or the ring holds at most `n` bytes, by induction:
any other poll consumes a byte. -/
theorem execAll_polls_reach_needMore {n : Nat} {s : State} (hs : s.ringOk)
    (h : s.polled.1 = .needMore ∨ s.count ≤ n) : ∃ t w, execAll (List.replicate (n + 1) .frPoll) s = some t ∧
      t.lastResponse = some { status := .needMore, results := .poll w none } := by
  induction n generalizing s with
  | zero =>
    have hst : s.polled.1 = .needMore := by
      refine h.elim id fun hempty => by_contra fun hne => ?_
      have hpos := s.polled_cases.consumed_pos hne
      have hle := s.polled_cases.consumed_le
      rw [State.validBytes_length] at hle
      omega
    obtain ⟨hp, -⟩ := s.polled_cases.eq_of_needMore hst
    exact ⟨_, _, execAll_cons (exec_frPoll hs.1), by rw [hp]; rfl⟩
  | succ n ih =>
    rw [List.replicate_succ, execAll_cons (exec_frPoll hs.1)]
    refine ih (State.answerPoll_ringOk hs) ?_
    by_cases hst : s.polled.1 = .needMore
    · exact .inl (State.polled_answerPoll_needMore hst)
    · have hpos := s.polled_cases.consumed_pos hst
      have hcount := h.resolve_left hst
      exact .inr (by rw [State.answerPoll_count]; omega)

/-- Settles O51: by the cases of the outcome, and `execAll_polls_reach_needMore`. -/
theorem frPollMakesProgress : Obligations.FrPollMakesProgress := by
  refine ⟨fun s hs => ?_, fun s hs => execAll_polls_reach_needMore hs (.inr (Nat.le_refl _))⟩
  have hcases := s.polled_cases
  have hle := hcases.consumed_le
  rw [State.validBytes_length] at hle
  refine ⟨_, _, _, exec_frPoll hs.1, (s.answerPoll_answered _).1, fun hst => ?_, fun hst => ?_,
    fun hst hmal hlarge => ?_⟩
  · obtain ⟨hp, hshort⟩ := hcases.eq_of_needMore hst
    rw [State.validBytes_length] at hshort
    rw [hp, State.answerPoll_needMore hs.1.2.1]
    exact ⟨⟨rfl, rfl, rfl, rfl⟩, fun h7 hcap => ⟨by omega, by omega⟩⟩
  · have hpos := hcases.consumed_pos hst
    rw [State.answerPoll_count]
    omega
  · obtain ⟨h8, htotal⟩ := hcases.total_le_consumed hst hmal hlarge
    rw [State.answerPoll_count]
    exact ⟨h8, by omega⟩

theorem exec_frPoll_of_lt {s : State} (h : s.count < 7) :
    exec .frPoll s = .next (s.respond .needMore (.poll 0 none)) :=
  if_pos h

/-- A claim over the capacity, with a header there, is discarded. -/
theorem State.polled_of_tooLarge {s : State} (hs : s.ringOk) (h7 : 7 ≤ s.count)
    (hcap : s.cap < 5 + (rd16 s.validBytes 1).toNat) :
    s.polled = (.frameTooLarge, skipCount s.validBytes 0 0x00, none) := by
  obtain ⟨⟨-, -, hcount, -⟩, -⟩ := hs
  rw [State.polled, pollOutcome, State.validBytes_length]
  simp only [if_neg h7.not_gt, if_neg (show ¬ (rd16 s.validBytes 1).toNat < 3 by omega), if_pos hcap]

/-- Settles O52: with `K < 3` the ring holds at most 4 bytes; a claim over the capacity is `polled_of_tooLarge`. -/
theorem ringTooSmallForAFrame : Obligations.RingTooSmallForAFrame := by
  refine ⟨fun s hs hk => ?_, fun s hs h7 hcap => ?_⟩
  · have hcap : s.cap ≤ 2 ^ 2 := Nat.pow_le_pow_right (by decide) (by omega)
    have hcount : s.count ≤ 4 := hs.1.2.2.1.trans hcap
    exact ⟨hcount, _, exec_frPoll_of_lt (by omega), s.respond_onlyAnswered _ _⟩
  · have hp := State.polled_of_tooLarge hs h7 hcap
    have hexec := exec_frPoll hs.1
    have hskip := lt_skipCount (q := s.validBytes) (offset := 0) (by rw [State.validBytes_length]; omega) 0x00
    rw [hp] at hexec
    exact ⟨_, _, hexec, (s.answerPoll_answered _).1, show s.count - skipCount s.validBytes 0 0x00 < s.count by omega⟩

/-! ### A serialized frame in the ring (R224, R233) -/

section Serialized

variable {ck : Bytes → U16} {d : TxDesc} {payload frame : Bytes} (hser : serializeTcp ck d payload = .ok frame)
include hser

theorem serialized_dataLength : (rd16 frame 1).toNat = encLen (txBody d payload).length + 3 := by
  obtain ⟨-, hlen, rfl⟩ := serializeTcp_eq_ok_iff.mp hser
  exact wireDataLength_streamFrame hlen

/-- A serialized frame is as long as it claims. -/
theorem serialized_length : frame.length = 5 + (rd16 frame 1).toNat := by
  rw [serialized_dataLength hser]
  obtain ⟨-, -, rfl⟩ := serializeTcp_eq_ok_iff.mp hser
  rw [streamFrame_length]
  omega

theorem serialized_length_lt : frame.length < 2 ^ 32 := by
  rw [serialized_length hser]
  omega

theorem serialized_terminator : byteAt frame (4 + (rd16 frame 1).toNat) = 0x00 := by
  rw [serialized_dataLength hser]
  obtain ⟨-, -, rfl⟩ := serializeTcp_eq_ok_iff.mp hser
  rw [← terminator_streamFrame (ck (txBody d payload)) d (txBody d payload)]
  congr 1
  omega

/-- A serialized frame in front of the contents is delivered, and exactly it is consumed. -/
theorem pollOutcome_of_serialized (hfits : chunkFits d payload.length) {cap : Nat} (hcap : frame.length ≤ cap)
    (rest : Bytes) : ∃ r, pollOutcome cap ck (frame ++ rest) = (.ok, frame.length, some r) ∧ carries r d payload := by
  have hlen := serialized_length hser
  have hdata := serialized_dataLength hser
  obtain ⟨r, hdes, hcarries, -⟩ := deserializeTcp_of_serializeTcp hser hfits
  have hdl : rd16 (frame ++ rest) 1 = rd16 frame 1 := rd16_append_left rest (by omega)
  have hend : byteAt (frame ++ rest) (4 + (rd16 frame 1).toNat) = 0x00 := by
    rw [byteAt_append_left rest (by omega), serialized_terminator hser]
  refine ⟨r, ?_, hcarries⟩
  rw [pollOutcome, List.length_append]
  simp only [hdl, hend, ← hlen, List.take_left, hdes]
  rw [if_neg (by omega), if_neg (by omega), if_neg (by omega), if_neg (by omega), if_neg (by simp)]

/-- While the frame is not all there, more is needed. -/
theorem pollOutcome_of_partial {cap : Nat} (hcap : frame.length ≤ cap) {q rest : Bytes} (hq : q ++ rest = frame)
    (hrest : rest ≠ []) : pollOutcome cap ck q = (.needMore, 0, none) := by
  have hlen := serialized_length hser
  have hdata := serialized_dataLength hser
  have hlt : q.length < frame.length := by
    rw [← hq, List.length_append]
    exact Nat.lt_add_of_pos_right (List.length_pos_iff.mpr hrest)
  rw [pollOutcome]
  by_cases h7 : q.length < 7
  · rw [if_pos h7]
  have hdl : rd16 q 1 = rd16 frame 1 := by rw [← hq, rd16_append_left rest (by omega)]
  simp only [hdl, ← hlen]
  rw [if_neg h7, if_neg (by omega), if_neg (by omega), if_pos hlt]

end Serialized

/-- Settles O54: by `pollOutcome_of_serialized`; the frame fits the ring that holds it. -/
theorem frPollDeliversASerializedFrame : Obligations.FrPollDeliversASerializedFrame := by
  intro d payload frame rest s hs hfits hser hbytes
  have hcap : frame.length ≤ s.cap := by
    have hcount := s.validBytes_length
    rw [hbytes, List.length_append] at hcount
    exact (Nat.le_of_add_right_le hcount.le).trans hs.1.2.2.1
  obtain ⟨r, hp, hcarries⟩ := pollOutcome_of_serialized hser hfits hcap rest
  rw [← hbytes] at hp
  have hexec := exec_frPoll hs.1
  rw [show s.polled = _ from hp] at hexec
  obtain ⟨hanswered, hsetting⟩ := s.answerPoll_answered (.ok, frame.length, some r)
  refine ⟨_, _, r, hexec, hanswered, toU32_toNat (serialized_length_lt hser), hcarries, ?_, rfl, rfl, hsetting⟩
  rw [State.answerPoll_validBytes, hbytes]
  exact List.drop_left

/-- What the writes, and the polls before the last piece, are answered. -/
def isWrittenOrNeedMore (x : Delivery) : Prop :=
  (∃ n, x.response = { status := .ok, results := .written n }) ∨
    x.response = { status := .needMore, results := .poll 0 none }

/-- A piece that fits stands behind the valid bytes, and its `RB_WRITE` is answered once. -/
theorem exec_rbWrite_piece {piece : Bytes} {s : State} (hs : s.ringOk) (hfit : piece.length ≤ s.cap - s.count) :
    ∃ t x, exec (.rbWrite piece) s = .next t ∧ t.ringOk ∧ t.cfg = s.cfg ∧ t.issuer = s.issuer ∧
      t.delivered = x :: s.delivered ∧ isWrittenOrNeedMore x ∧ t.validBytes = s.validBytes ++ piece := by
  obtain ⟨t, w, e, ⟨hdelivered, -⟩, -, -, -, -, -, -, -, hcfg, -, -, -, -, hissuer⟩ := rbWriteAppendsWhatFits piece s hs
  obtain ⟨u, eu, hbytes⟩ := exec_rbWrite_of_fits hs hfit
  obtain rfl : u = t := by simpa [eu] using e
  obtain ⟨v, ev, hinv, -⟩ := exec_keeps_invariant (.rbWrite piece) hs
  obtain rfl : v = u := by simpa [ev] using e
  exact ⟨v, _, e, hinv.1, hcfg, hissuer, hdelivered, .inl ⟨w, rfl⟩, hbytes⟩

/-- While the ring holds a part of the frame, a poll answers NEED_MORE and does nothing else. -/
theorem exec_frPoll_of_partial {d : TxDesc} {payload frame rest : Bytes} {s : State} (hs : s.ringOk)
    (hser : serializeTcp s.checksum d payload = .ok frame) (hcap : frame.length ≤ s.cap)
    (hbytes : s.validBytes ++ rest = frame) (hrest : rest ≠ []) :
    exec .frPoll s = .next (s.respond .needMore (.poll 0 none)) := by
  have hpolled : s.polled = (.needMore, 0, none) := pollOutcome_of_partial hser hcap hbytes hrest
  rw [exec_frPoll hs.1, hpolled, State.answerPoll_needMore hs.1.2.1]

/-- The statement of R233 from a ring that already holds the first bytes of the frame, by induction on the pieces: after
each but the last, more is needed; after the last, the ring holds exactly the frame. -/
theorem execAll_pieces {d : TxDesc} {payload frame : Bytes} (hfits : chunkFits d payload.length)
    {pieces : List Bytes} {s : State} (hs : s.ringOk) (hser : serializeTcp s.checksum d payload = .ok frame)
    (hcap : frame.length ≤ s.cap) (hne : ∀ p ∈ pieces, p ≠ []) (hsome : pieces ≠ [])
    (hbytes : s.validBytes ++ pieces.flatten = frame) :
    ∃ t w r new, execAll (pieces.flatMap fun p => [.rbWrite p, .frPoll]) s = some t ∧
      t.delivered = { issuer := s.issuer, response := { status := .ok, results := .poll w (some r) } } ::
        (new ++ s.delivered) ∧ w.toNat = frame.length ∧ carries r d payload ∧ t.count = 0 ∧
      ∀ x ∈ new, isWrittenOrNeedMore x := by
  induction pieces generalizing s with
  | nil => exact absurd rfl hsome
  | cons piece pieces ih =>
    rw [List.flatten_cons, ← List.append_assoc] at hbytes
    have hfit : piece.length ≤ s.cap - s.count := by
      have hsum := congrArg List.length hbytes
      simp only [List.length_append, State.validBytes_length] at hsum
      omega
    obtain ⟨u, x, ewrite, hu, hcfg, hissuer, hdelivered, hx, hubytes⟩ := exec_rbWrite_piece hs hfit
    have hck : u.checksum = s.checksum := funext (State.checksum_congr hcfg)
    rw [← hubytes] at hbytes
    rw [← hck] at hser
    rw [← State.cap_congr hcfg] at hcap
    rw [List.flatMap_cons, List.cons_append, List.cons_append, List.nil_append, execAll_cons ewrite]
    by_cases hlast : pieces = []
    · subst hlast
      obtain ⟨t, w, r, epoll, ⟨ht, -⟩, hw, hcarries, hnil, -⟩ :=
        frPollDeliversASerializedFrame d payload frame [] u hu hfits hser (by simpa using hbytes)
      rw [hissuer, hdelivered] at ht
      refine ⟨t, w, r, [x], execAll_cons epoll, ht, hw, hcarries, ?_, List.forall_mem_singleton.mpr hx⟩
      rw [← t.validBytes_length, hnil, List.length_nil]
    · have hrest : pieces.flatten ≠ [] := by
        obtain ⟨p, hp⟩ := List.exists_mem_of_ne_nil pieces hlast
        exact fun hnil => hne p (List.mem_cons_of_mem _ hp) (List.flatten_eq_nil_iff.mp hnil p hp)
      rw [execAll_cons (exec_frPoll_of_partial hu hser hcap hbytes hrest)]
      obtain ⟨t, w, r, new, e, ht, hw, hcarries, hempty, hnew⟩ := ih (s := u.respond .needMore (.poll 0 none)) hu hser
        hcap (fun p hp => hne p (List.mem_cons_of_mem _ hp)) hlast hbytes
      rw [State.respond_delivered, State.respond_issuer, hdelivered, hissuer, List.append_cons, List.append_cons] at ht
      exact ⟨t, w, r, _, e, ht, hw, hcarries, hempty, List.forall_mem_append.mpr
        ⟨List.forall_mem_append.mpr ⟨hnew, List.forall_mem_singleton.mpr (.inr rfl)⟩, List.forall_mem_singleton.mpr hx⟩⟩

/-- Settles O56: by `execAll_pieces` from the empty ring; a frame has at least 8 bytes, so there is a piece. -/
theorem frameInPiecesIsDeliveredOnce : Obligations.FrameInPiecesIsDeliveredOnce := by
  intro d payload frame pieces s hs hempty hfits hser hcap hne hflat
  have hnil : s.validBytes = [] := List.length_eq_zero_iff.mp (s.validBytes_length.trans hempty)
  refine execAll_pieces hfits hs hser hcap hne ?_ (by rw [hnil, hflat]; rfl)
  rintro rfl
  have hlen := serialized_length hser
  rw [← hflat, List.flatten_nil, List.length_nil] at hlen
  omega

/-! ### `PAYLOAD_SIZE` (R207) -/

/-- Another value of `PAYLOAD_SIZE`. -/
def State.withPayloadSize (s : State) (p : Nat) : State := { s with cfg := { s.cfg with payloadSize := p } }

theorem State.scan_withPayloadSize (s : State) (p : Nat) (v : Byte) (fuel i : Nat) :
    (s.withPayloadSize p).scan v fuel i = s.scan v fuel i := by
  induction fuel generalizing i with
  | zero => rfl
  | succ fuel ih => rw [State.scan, State.scan, ih]; rfl

theorem State.findFrom_withPayloadSize (s : State) (p offset : Nat) (v : Byte) :
    (s.withPayloadSize p).findFrom offset v = s.findFrom offset v := s.scan_withPayloadSize p v _ _

theorem State.storeFrom_withPayloadSize (s : State) (p i : Nat) (bs : Bytes) :
    (s.withPayloadSize p).storeFrom i bs = (s.storeFrom i bs).withPayloadSize p := by
  induction bs generalizing s i with
  | nil => rfl
  | cons b bs ih => exact ih (s.memWrite i b) (i + 1)

/-- The same move keeps the difference. -/
theorem SameMove.withPayloadSize {s m m' : State} {p : Nat} (h : SameMove s (s.withPayloadSize p) m m') :
    m' = m.withPayloadSize p := by
  cases h with
  | stay => rfl
  | append bs n _ _ => exact congrArg (State.produce · n) (s.storeFrom_withPayloadSize p s.head bs)
  | discard n => rfl
  | clear => rfl

theorem SameMove.skipUntil_withPayloadSize (s : State) (p offset : Nat) (v : Byte) :
    SameMove s (s.withPayloadSize p) (s.skipUntil offset v) ((s.withPayloadSize p).skipUntil offset v) := by
  rw [State.skipUntil, State.skipUntil, State.findFrom_withPayloadSize]
  cases s.findFrom offset v with
  | some i => exact .discard (i + 1)
  | none => exact .clear

theorem AnswersAlike.resync_withPayloadSize (s : State) (p offset : Nat) (st : Status) :
    AnswersAlike s (s.withPayloadSize p) (.next (s.resync offset st))
      (.next ((s.withPayloadSize p).resync offset st)) := by
  have hmove := SameMove.skipUntil_withPayloadSize s p offset 0x00
  have hcount : ((s.withPayloadSize p).skipUntil offset 0x00).count = (s.skipUntil offset 0x00).count := hmove.count rfl
  rw [State.resync, State.resync, hcount]
  exact hmove.answersAlike _ _

theorem AnswersAlike.respondPolled {s s' : State} (total : Nat) (x : Except Status RxResult) :
    AnswersAlike s s' (.next ((s.consume total).respondPolled total x))
      (.next ((s'.consume total).respondPolled total x)) := by
  obtain ⟨st, r, e⟩ := State.respondPolled_eq total x
  rw [e, e]
  exact (SameMove.discard total).answersAlike st r

/-- Every condition and every response of a command is the same whatever `PAYLOAD_SIZE` is. -/
theorem exec_withPayloadSize (i : Instr) (s : State) (p : Nat) :
    AnswersAlike s (s.withPayloadSize p) (exec i s) (exec i (s.withPayloadSize p)) := by
  have hstateless (i : Instr) (hi : readsNoRing i = true) :
      AnswersAlike s (s.withPayloadSize p) (exec i s) (exec i (s.withPayloadSize p)) := by
    obtain ⟨st, r, e⟩ := exec_of_readsNoRing hi s.cfg.checksum
    exact ⟨_, _, st, r, .stay, e s rfl, e _ rfl⟩
  have hstay (st : Status) (r : Results) := (SameMove.stay (s := s) (s' := s.withPayloadSize p)).answersAlike st r
  have hdiscard (n : Nat) (st : Status) (r : Results) :=
    (SameMove.discard (s := s) (s' := s.withPayloadSize p) n).answersAlike st r
  cases i with
  | rbWrite src => exact (SameMove.append (src.take _) _ (by simp) (by omega)).answersAlike _ _
  | rbRead len skip => exact .ite (fun _ => hstay _ _) fun _ => hdiscard _ _ _
  | rbPeek len skip => exact .ite (fun _ => hstay _ _) fun _ => hstay _ _
  | rbPeekByte offset => exact .ite (fun _ => hstay _ _) fun _ => hstay _ _
  | rbPeekHeader skip => exact .ite (fun _ => hstay _ _) fun _ => hstay _ _
  | rbSkipUntil offset value =>
    rw [exec, exec, execRbSkipUntil, execRbSkipUntil, State.findFrom_withPayloadSize]
    exact (SameMove.skipUntil_withPayloadSize s p _ _).answersAlike _ _
  | rbSkip n => exact hdiscard _ _ _
  | rbStat => exact hstay _ _
  | frPoll =>
    exact .ite (fun _ => hstay _ _) fun _ => .ite (fun _ => .resync_withPayloadSize s p _ _) fun _ =>
      .ite (fun _ => .resync_withPayloadSize s p _ _) fun _ => .ite (fun _ => hstay _ _) fun _ =>
      .ite (fun _ => .resync_withPayloadSize s p _ _) fun _ => .respondPolled _ _
  | pcEncode _ | pcDecode _ | hcWriteHeader _ _ | hcReadHeader _ _ | hcReadOptional _ _ | frSerializeTcp _ _
  | frSerializeUdp _ _ | frDeserializeTcp _ | frDeserializeUdp _ => exact hstateless _ rfl

/-- Settles O59: by `exec_withPayloadSize`; the same move and the same response keep the difference. -/
theorem payloadSizeIsNeverRead : Obligations.PayloadSizeIsNeverRead := by
  intro i s p
  obtain ⟨m, m', st, r, hmove, e, e'⟩ := exec_withPayloadSize i s p
  obtain rfl := hmove.withPayloadSize
  exact ⟨_, e, e'⟩

end Sys2Proof.Machine
end

-- ==== Proofs of the family 60_exceptions: one response to every command, its status, runs that never stop ====
section
/-! SUPPORT. The rules of `60_exceptions.md`. That a command answers once follows from `exec_cases`. With the answer to a
reserved opcode this gives that a request with a presentable record is always served (`serve_of_presentable`), and so that
no run stops. Which statuses a command can answer with is said once for all 18 by `exec_answersAsListed`. -/

namespace Sys2Proof.Machine

open Sys2Proof.Spec

/-! ### Every command answers once (R240, R249) -/

theorem exec_answered (i : Instr) (s : State) :
    ∃ t st r, exec i s = .next t ∧ s.answered t st r ∧ s.sameSetting t := by
  obtain ⟨m, st, r, hm, e⟩ := exec_cases i s
  exact ⟨_, st, r, e, hm.answered st r⟩

/-- Settles O12: the one response of `exec_cases`, after a move that leaves the setting alone. -/
theorem everyCommandEndsWithOneResponse : Obligations.EveryCommandEndsWithOneResponse := exec_answered

/-! ### Reserved opcodes (R77, R244) -/

/-- A byte that is none of the opcodes of R76 is reserved. -/
theorem ofCode_eq_none {b : Byte}
    (hb : b.toNat ∉ [1, 2, 3, 4, 5, 6, 7, 8, 0x10, 0x11, 0x20, 0x21, 0x22, 0x30, 0x31, 0x32, 0x33, 0x34]) :
    Opcode.ofCode b = none := by
  refine Option.eq_none_iff_forall_ne_some.mpr fun op hop => hb ?_
  rw [← code_of_ofCode_eq_some hop]
  cases op <;> decide

/-- Whatever follows the reserved byte, the request is answered and nothing else happens. -/
theorem serve_of_reserved {b : Byte} (hb : Opcode.ofCode b = none) (rest : Bytes) (s : State) :
    serve (b :: rest) s = .next (s.fail .illegalCommand) := by
  rw [serve, decode, hb]
  rfl

/-- Settles O4: the accepted request is answered by `serve_of_reserved`. -/
theorem reservedOpcodeAnswersIllegalCommand : Obligations.ReservedOpcodeAnswersIllegalCommand := by
  intro s r b rest hdisposed hbusy hr hrecord hb
  have hstep := step_of_nextRequest hdisposed hbusy hr
  rw [hrecord, serve_of_reserved (ofCode_eq_none hb)] at hstep
  exact ⟨_, hstep, ⟨rfl, rfl, rfl, rfl⟩, rfl, hdisposed, rfl, rfl⟩

/-! ### Runs with presentable records (R75, R240, R271) -/

/-- What lets a step answer a next state: the block can serve, and every request is one that can be served. -/
structure State.Servable (s : State) : Prop where
  live : s.disposed = false
  unlocked : s.busy = false
  presented : ∀ r ∈ s.pending, presentable r.record

/-- A presentable record is served, with one response. -/
theorem serve_of_presentable {record : Bytes} (h : presentable record) (s : State) :
    ∃ t st r, serve record s = .next t ∧ s.answered t st r ∧ s.sameSetting t := by
  obtain ⟨i, hi⟩ | ⟨b, rest, rfl, hb⟩ := h
  · rw [serve_of_decode hi]
    exact exec_answered i s
  · obtain ⟨hanswered, -, hsetting⟩ := s.respond_onlyAnswered .illegalCommand .absent
    exact ⟨_, _, _, serve_of_reserved hb rest s, hanswered, hsetting⟩

theorem step_of_nextRequest_none {s : State} (hd : s.disposed = false) (hb : s.busy = false)
    (hr : s.nextRequest = none) : step s = .next s := by
  rw [step, hd, hb, hr]
  rfl

/-- A step serves one of the requests, and leaves the rest of them. -/
theorem State.Servable.exists_step {s : State} (h : s.Servable) : ∃ t, step s = .next t ∧ t.Servable := by
  cases hr : s.nextRequest with
  | none => exact ⟨s, step_of_nextRequest_none h.live h.unlocked hr, h⟩
  | some r =>
    obtain ⟨t, _, _, e, ⟨-, hunlocked⟩, -, hdisposed, hpending, -⟩ :=
      serve_of_presentable (h.presented r (List.mem_of_getElem? hr)) (s.accept r)
    refine ⟨t, (step_of_nextRequest h.live h.unlocked hr).trans e, hdisposed.trans h.live, hunlocked, fun q hq => ?_⟩
    rw [hpending] at hq
    exact h.presented q (List.mem_of_mem_eraseIdx hq)

theorem State.safeFor_succ {n : Nat} {s t : State} (h : step s = .next t) : s.safeFor (n + 1) ↔ t.safeFor n := by
  rw [State.safeFor, runFor, h, State.safeFor]

theorem State.Servable.safeFor {s : State} (h : s.Servable) (n : Nat) : s.safeFor n := by
  induction n generalizing s with
  | zero => rfl
  | succ n ih =>
    obtain ⟨t, hstep, ht⟩ := h.exists_step
    exact (State.safeFor_succ hstep).mpr (ih ht)

/-- Settles O11: every step answers and keeps `Servable`, of which the invariant gives the clear lock. -/
theorem presentableRunsAreSafe : Obligations.PresentableRunsAreSafe := by
  rintro n s ⟨-, hunlocked⟩ hlive hpresented
  exact State.Servable.safeFor ⟨hlive, hunlocked, hpresented⟩ n

/-! ### The status codes (R241, column "code") -/

/-- The rows of R241. -/
def Status.all : List Status :=
  [.ok, .needMore, .framingDesync, .checksumMismatch, .decodeLength, .malformedHeader, .malformedBody, .chunkBounds,
    .dgramLengthMismatch, .frameTooLarge, .badOperand, .illegalCommand]

theorem Status.mem_all (st : Status) : st ∈ Status.all := by
  cases st <;> decide

/-- The codes of the twelve rows are distinct. -/
theorem Status.code_injective : Function.Injective Status.code := fun st st' h =>
  List.inj_on_of_nodup_map (l := Status.all) (by decide) st.mem_all st'.mem_all h

/-! ### The statuses of the serializers and deserializers (R200, R204, R214, R218) -/

/-- The status of the response to what a serializer built or a deserializer found. -/
def statusOf {α : Type} : Except Status α → Status
  | .ok _ => .ok
  | .error st => st

/-- The statuses of a list of checks: a check that fails with a status of the list, and then the rest of them. -/
theorem statusOf_check {α : Type} {allowed : List Status} {c : Prop} [Decidable c] {st : Status} {x : Except Status α}
    (hst : st ∈ allowed) (hx : statusOf x ∈ allowed) : statusOf (if c then .error st else x) ∈ allowed := by
  split
  · exact hst
  · exact hx

theorem statusOf_serializeTcp (ck : Bytes → U16) (d : TxDesc) (payload : Bytes) :
    statusOf (serializeTcp ck d payload) ∈ [.ok, .badOperand, .frameTooLarge] :=
  statusOf_check (by decide) (statusOf_check (by decide) List.mem_cons_self)

theorem statusOf_serializeUdp (d : TxDesc) (payload : Bytes) :
    statusOf (serializeUdp d payload) ∈ [.ok, .badOperand, .frameTooLarge] :=
  statusOf_check (by decide) (statusOf_check (by decide) List.mem_cons_self)

theorem statusOf_buildResult (f : Byte) (dl id cs : U16) (body : Bytes) :
    statusOf (buildResult f dl id cs body) ∈ [.ok, .malformedBody, .chunkBounds] :=
  statusOf_check (by decide) (statusOf_check (by decide) List.mem_cons_self)

theorem statusOf_deserializeBody (ck : Bytes → U16) (frame : Bytes) :
    statusOf (deserializeBody ck frame) ∈ [.ok, .decodeLength, .checksumMismatch, .malformedBody, .chunkBounds] :=
  statusOf_check (by decide) (statusOf_check (by decide)
    (List.subset_def.mp (by decide) (statusOf_buildResult _ _ _ _ _)))

theorem statusOf_deserializeTcp (ck : Bytes → U16) (frame : Bytes) :
    statusOf (deserializeTcp ck frame) ∈
      [.ok, .malformedHeader, .framingDesync, .decodeLength, .checksumMismatch, .malformedBody, .chunkBounds] :=
  statusOf_check (by decide) (statusOf_check (by decide) (statusOf_check (by decide) (statusOf_check (by decide)
    (List.subset_def.mp (by decide) (statusOf_deserializeBody ck frame)))))

theorem statusOf_deserializeUdp (dgram : Bytes) :
    statusOf (deserializeUdp dgram) ∈ [.ok, .dgramLengthMismatch, .malformedBody, .chunkBounds] :=
  statusOf_check (by decide) (statusOf_check (by decide)
    (List.subset_def.mp (by decide) (statusOf_buildResult _ _ _ _ _)))

/-! ### The statuses of the commands (R241, column "returned by") -/

/-- The answer `x` is one response, with a status that R241 lists for the command `i`. -/
def AnswersAsListed (i : Instr) (x : Result) : Prop :=
  ∃ (m : State) (st : Status) (r : Results), st ∈ mayReturn i ∧ x = .next (m.respond st r)

namespace AnswersAsListed

variable {i : Instr}

theorem respond {st : Status} (h : st ∈ mayReturn i) (m : State) (r : Results) :
    AnswersAsListed i (.next (m.respond st r)) := ⟨m, st, r, h, rfl⟩

/-- R241 lists `OK` for every command. -/
theorem ok (m : State) (r : Results) : AnswersAsListed i (.next (m.respond .ok r)) :=
  respond (by cases i <;> exact List.mem_cons_self) m r

theorem ite {c : Prop} [Decidable c] {x y : Result} (hx : AnswersAsListed i x) (hy : AnswersAsListed i y) :
    AnswersAsListed i (if c then x else y) := by
  split
  · exact hx
  · exact hy

theorem respondBuilt {x : Except Status Bytes} (h : statusOf x ∈ mayReturn i) (s : State) :
    AnswersAsListed i (.next (s.respondBuilt x)) := by
  cases x <;> exact respond h s _

theorem respondRx {x : Except Status RxResult} (h : statusOf x ∈ mayReturn i) (s : State) :
    AnswersAsListed i (.next (s.respondRx x)) := by
  cases x <;> exact respond h s _

theorem respondPolled {x : Except Status RxResult} (h : statusOf x ∈ mayReturn i) (s : State) (total : Nat) :
    AnswersAsListed i (.next (s.respondPolled total x)) := by
  cases x <;> exact respond h s _

end AnswersAsListed

/-- Every branch of every command answers with a status listed for it. The commands with one check have `OK` and then
that check's status in their list; what `FR_POLL` takes from the ring ends as in `FR_DESERIALIZE_TCP`. -/
theorem exec_answersAsListed (i : Instr) (s : State) : AnswersAsListed i (exec i s) := by
  cases i with
  | rbWrite _ | rbSkipUntil _ _ | rbSkip _ | rbStat | pcEncode _ => exact .ok _ _
  | rbRead _ _ | rbPeek _ _ | rbPeekByte _ => exact .ite (.ok _ _) (.ok _ _)
  | rbPeekHeader _ | pcDecode _ | hcWriteHeader _ _ | hcReadHeader _ _ | hcReadOptional _ _ =>
    exact .ite (.respond (.tail _ (.head _)) _ _) (.ok _ _)
  | frSerializeTcp d payload => exact .respondBuilt (statusOf_serializeTcp s.checksum d payload) s
  | frSerializeUdp d payload => exact .respondBuilt (statusOf_serializeUdp d payload) s
  | frDeserializeTcp frame => exact .respondRx (statusOf_deserializeTcp s.checksum frame) s
  | frDeserializeUdp dgram => exact .respondRx (statusOf_deserializeUdp dgram) s
  | frPoll =>
    exact .ite (.respond (by decide) _ _) <| .ite (.respond (by decide) _ _) <| .ite (.respond (by decide) _ _) <|
      .ite (.respond (by decide) _ _) <| .ite (.respond (by decide) _ _) <|
      .respondPolled (List.subset_def.mp (by decide) (statusOf_deserializeTcp _ _)) _ _

/-- Settles O13: the codes by evaluation, and the response of `exec_answersAsListed` is the newest one. -/
theorem statusesAreThoseOfTheTable : Obligations.StatusesAreThoseOfTheTable := by
  refine ⟨rfl, Status.code_injective, fun i s t p ht hp => ?_⟩
  obtain ⟨m, st, r, hst, e⟩ := exec_answersAsListed i s
  obtain rfl : m.respond st r = t := by simpa [e] using ht
  obtain rfl : { status := st, results := r } = p := by simpa using hp
  exact hst

end Sys2Proof.Machine
end

-- ==== Proofs of the family 70_reset_and_hazards: creation, teardown, the empty ring, the full ring, a lowered length ====
section
/-! SUPPORT. The rules of `70_reset_and_hazards.md`. The two rules about `FR_POLL` are rules about the pseudocode's
outcome, to which `exec_frPoll` reduces it: on a full ring it is not NEED_MORE, and where the claimed end holds no
terminator it is FRAMING_DESYNC. -/

namespace Sys2Proof.Machine

open Sys2Proof.Spec

/-! ### A claimed end without a terminator (R286, R105, R224) -/

/-- A claim that lies in the ring and does not end in `0x00` is FRAMING_DESYNC. -/
theorem pollOutcome_of_noTerminator {cap : Nat} {ck : Bytes → U16} {q : Bytes} (h3 : 3 ≤ (rd16 q 1).toNat)
    (hcap : 5 + (rd16 q 1).toNat ≤ cap) (hlen : 5 + (rd16 q 1).toNat ≤ q.length)
    (hend : byteAt q (4 + (rd16 q 1).toNat) ≠ 0x00) :
    pollOutcome cap ck q = (.framingDesync, skipCount q (4 + (rd16 q 1).toNat) 0x00, none) := by
  rw [pollOutcome, if_neg (by omega), if_neg h3.not_gt, if_neg hcap.not_gt, if_neg hlen.not_gt, if_pos hend]

/-- The bytes of a serialized frame between its checksum and its terminator are those of the encoded body, none of which
is zero. -/
theorem serialized_byteAt_ne_zero {ck : Bytes → U16} {d : TxDesc} {payload frame : Bytes}
    (hser : serializeTcp ck d payload = .ok frame) {i : Nat} (h7 : 7 ≤ i) (hi : i < 4 + (rd16 frame 1).toNat) :
    byteAt frame i ≠ 0x00 := by
  rw [serialized_dataLength hser] at hi
  obtain ⟨-, -, rfl⟩ := serializeTcp_eq_ok_iff.mp hser
  obtain ⟨j, rfl⟩ := Nat.exists_eq_add_of_le h7
  have hj : j < (payloadEncode (txBody d payload)).length := by rw [payloadEncode_length]; omega
  have hbody := slice_streamFrame (ck (txBody d payload)) d (txBody d payload)
  rw [← byteAt_take (n := encLen (txBody d payload).length + 7) (by omega), ← byteAt_drop, ← slice, hbody,
    byteAt_eq_getElem hj]
  exact (encodedBytesAreNeverZero _ _ (List.getElem_mem hj)).2

/-! ### Another `dataLength` in a frame (R62, R286) -/

/-- The frame with `claim` in place of its `dataLength`, wire bytes 1 and 2. -/
def withDataLength (claim : U16) (frame : Bytes) : Bytes := [byteAt frame 0] ++ le16 claim ++ frame.drop 3

theorem rd16_withDataLength (claim : U16) (frame rest : Bytes) : rd16 (withDataLength claim frame ++ rest) 1 = claim := by
  rw [withDataLength, List.append_assoc, List.append_assoc]
  exact (rd16_append_right [_] _ 0).trans (rd16_le16 claim _)

theorem withDataLength_length {frame : Bytes} (h : 3 ≤ frame.length) (claim : U16) :
    (withDataLength claim frame).length = frame.length := by
  rw [withDataLength, List.length_append, List.length_drop]
  exact Nat.add_sub_of_le h

theorem byteAt_withDataLength {i : Nat} (h : 3 ≤ i) (claim : U16) (frame : Bytes) :
    byteAt (withDataLength claim frame) i = byteAt frame i := by
  obtain ⟨j, rfl⟩ := Nat.exists_eq_add_of_le h
  exact (byteAt_append_right ([byteAt frame 0] ++ le16 claim) (frame.drop 3) j).trans (byteAt_drop frame 3 j)

/-- Where a serialized frame claims less than it is, the claimed end lies in the encoded body. -/
theorem pollOutcome_of_lowered {ck : Bytes → U16} {d : TxDesc} {payload frame : Bytes}
    (hser : serializeTcp ck d payload = .ok frame) {claim : U16} (h3 : 3 ≤ claim.toNat)
    (hlow : claim.toNat < (rd16 frame 1).toNat) {cap : Nat} (hcap : frame.length ≤ cap) (rest : Bytes) :
    pollOutcome cap ck (withDataLength claim frame ++ rest) =
      (.framingDesync, skipCount (withDataLength claim frame ++ rest) (4 + claim.toNat) 0x00, none) := by
  have hlen := serialized_length hser
  have hsame := withDataLength_length (frame := frame) (by omega) claim
  have hdl := rd16_withDataLength claim frame rest
  have hend : byteAt (withDataLength claim frame ++ rest) (4 + claim.toNat) ≠ 0x00 := by
    rw [byteAt_append_left rest (by omega), byteAt_withDataLength (by omega)]
    exact serialized_byteAt_ne_zero hser (by omega) (by omega)
  have hp := pollOutcome_of_noTerminator (cap := cap) (ck := ck) (q := withDataLength claim frame ++ rest)
  rw [hdl, List.length_append] at hp
  exact hp h3 (by omega) (by omega) hend

/-- Settles O55: by `pollOutcome_of_lowered`; the frame fits the ring that holds it. -/
theorem loweredLengthIsCaught : Obligations.LoweredLengthIsCaught := by
  intro d payload frame rest claim s hs hser h3 hlow hbytes
  change s.validBytes = withDataLength claim frame ++ rest at hbytes
  have hlen := serialized_length hser
  have hcount : frame.length + rest.length = s.count := by
    rw [← s.validBytes_length, hbytes, List.length_append, withDataLength_length (by omega)]
  have hcap : frame.length ≤ s.cap := (Nat.le_of_add_right_le hcount.le).trans hs.1.2.2.1
  have hp : s.polled = (.framingDesync, skipCount s.validBytes (4 + claim.toNat) 0x00, none) := by
    rw [State.polled, hbytes]
    exact pollOutcome_of_lowered hser h3 hlow hcap rest
  have hskip := lt_skipCount (q := s.validBytes) (offset := 4 + claim.toNat) (by rw [s.validBytes_length]; omega) 0x00
  have hexec := exec_frPoll hs.1
  rw [hp] at hexec
  exact ⟨_, _, hexec, (s.answerPoll_answered _).1, Nat.sub_lt (by omega) (Nat.zero_lt_of_lt hskip)⟩

/-! ### The full ring (R280) -/

/-- A full ring with room for a header holds all of what its header claims, or the claim is over the capacity. -/
theorem State.polled_ne_needMore_of_full {s : State} (hs : s.ringOk) (h7 : 7 ≤ s.count) (hfull : s.count = s.cap) :
    s.polled.1 ≠ .needMore := by
  intro hst
  obtain ⟨-, hshort⟩ := s.polled_cases.eq_of_needMore hst
  rw [State.validBytes_length] at hshort
  rw [State.polled_of_tooLarge hs h7 (hfull ▸ hshort.resolve_left h7.not_gt)] at hst
  cases hst

/-- Settles O53: with `K ≥ 3` a full ring holds at least 8 bytes, and an outcome other than NEED_MORE consumes some. -/
theorem fullRingIsNeverStuck : Obligations.FullRingIsNeverStuck := by
  intro s hs hk hfull
  have h8 : 2 ^ 3 ≤ s.count := hfull ▸ Nat.pow_le_pow_right Nat.two_pos hk
  have hst := State.polled_ne_needMore_of_full hs (by omega) hfull
  have hpos := s.polled_cases.consumed_pos hst
  exact ⟨_, _, _, exec_frPoll hs.1, (s.answerPoll_answered _).1, hst, Nat.sub_lt (by omega) hpos⟩

/-! ### Steps that serve nothing (R29, R271) -/

theorem step_of_disposed {s : State} (hd : s.disposed = true) : step s = .fault .disposed := if_pos hd

theorem step_of_busy {s : State} (hd : s.disposed = false) (hb : s.busy = true) : step s = .fault .lockHeld := by
  rw [step, hd, hb]
  rfl

/-- After teardown no command is accepted. -/
theorem State.present_of_disposed {s : State} (hd : s.disposed = true) (issuer : Nat) (record : Bytes) :
    s.present issuer record = s := if_pos hd

theorem State.nextRequest_eq_none {s : State} (h : s.pending = []) : s.nextRequest = none := by
  rw [State.nextRequest, h]
  rfl

/-- Settles O7: by the branches of `step`, each of which has its lemma. -/
theorem stepsWithoutService : Obligations.StepsWithoutService := by
  refine ⟨fun s n record => ?_, fun s => step_of_busy, fun s hd hb hp =>
    step_of_nextRequest_none hd hb (State.nextRequest_eq_none hp)⟩
  rw [State.present_of_disposed s.dispose_disposed]
  exact ⟨step_of_disposed s.dispose_disposed, rfl, rfl⟩

/-! ### Creation (R270) -/

/-- Settles O8: by `State.create_inv`; reset is a creation. -/
theorem createdInstanceMeetsTheInvariant : Obligations.CreatedInstanceMeetsTheInvariant :=
  ⟨fun c => ⟨State.create_inv c, rfl, rfl, rfl, rfl, rfl⟩, State.create_inv _⟩

/-! ### Emptying the ring (R272) -/

/-- `RB_CLEAR` discards every valid byte that its operand can count. -/
theorem exec_pseudoRbClear {s : State} (h : s.cursorsOk) (hcount : s.count < 2 ^ 32) :
    exec pseudoRbClear s = .next (s.discardAll.respond .ok .absent) := by
  have hall : min (0xFFFFFFFF : U32).toNat s.count = s.count := Nat.min_eq_right (Nat.le_of_lt_succ hcount)
  rw [pseudoRbClear, exec, execRbSkip, hall, State.discardAll_eq_consume h]

/-- Settles O22: by `exec_pseudoRbClear`, and the frame of the move. -/
theorem rbClearEmptiesTheRing : Obligations.RbClearEmptiesTheRing := by
  intro s hs hcount
  obtain ⟨hanswered, hsetting⟩ := (RingMove.clear (i := pseudoRbClear) (s := s) rfl).answered .ok .absent
  exact ⟨_, exec_pseudoRbClear hs.1 hcount, hanswered, s.discardAll_validBytes, rfl, rfl, rfl, rfl, hsetting⟩

/-! ### The commands of an empty ring (R273) -/

section Empty

variable {s : State} (hempty : s.count = 0)
include hempty

theorem State.deliverable_of_empty (len skip : Nat) : s.deliverable len skip = 0 := by
  rw [State.deliverable, hempty, Nat.zero_sub, Nat.min_zero]

theorem State.findFrom_of_empty (offset : Nat) (v : Byte) : s.findFrom offset v = none := by
  rw [State.findFrom, hempty, Nat.zero_sub, State.scan]

/-- There is nothing to discard, and the cursors are equal already. -/
theorem State.skipUntil_of_empty (h : s.cursorsOk) (offset : Nat) (v : Byte) : s.skipUntil offset v = s := by
  rw [State.skipUntil, State.findFrom_of_empty hempty, State.discardAll_eq_consume h, hempty, State.consume_zero h.2.1]

theorem exec_rbRead_of_empty (len skip : U32) :
    exec (.rbRead len skip) s = .next (s.respond .ok (.read [] 0)) :=
  exec_rbRead_of_eq_zero (State.deliverable_of_empty hempty _ _)

theorem exec_rbPeek_of_empty (len skip : U32) :
    exec (.rbPeek len skip) s = .next (s.respond .ok (.read [] 0)) :=
  if_pos (State.deliverable_of_empty hempty _ _)

theorem exec_rbSkipUntil_of_empty (h : s.cursorsOk) (offset : U32) (v : Byte) :
    exec (.rbSkipUntil offset v) s = .next (s.respond .ok (.found false)) := by
  rw [exec, execRbSkipUntil, State.skipUntil_of_empty hempty h, State.findFrom_of_empty hempty]
  rfl

theorem exec_rbSkip_of_empty (h : s.cursorsOk) (n : U32) :
    exec (.rbSkip n) s = .next (s.respond .ok .absent) := by
  rw [exec, execRbSkip, hempty, Nat.min_zero, State.consume_zero h.2.1]

end Empty

/-- Settles O23: a created ring is empty, and a response alone changes nothing else. -/
theorem commandsOfAFreshInstance : Obligations.CommandsOfAFreshInstance := by
  intro c len skip v s
  obtain ⟨⟨hcursors, -⟩, -⟩ := State.create_inv c
  have hempty : s.count = 0 := rfl
  have hresponse (st : Status) (r : Results) := s.respond_onlyAnswered st r
  exact ⟨⟨_, exec_rbRead_of_empty hempty len skip, hresponse _ _⟩,
    ⟨_, exec_rbPeek_of_empty hempty len skip, hresponse _ _⟩,
    ⟨_, exec_rbPeekByte_of_le (by omega), hresponse _ _⟩, ⟨_, exec_rbPeekHeader_of_lt (by omega), hresponse _ _⟩,
    ⟨_, exec_frPoll_of_lt (by omega), hresponse _ _⟩,
    ⟨_, exec_rbSkipUntil_of_empty hempty hcursors skip v, hresponse _ _⟩,
    ⟨_, exec_rbSkip_of_empty hempty hcursors len, hresponse _ _⟩⟩

end Sys2Proof.Machine
end
